-- ==== Sys2Proof/Word.lean ====
section
/-! DEFINITION. The word types of the core: bytes, 16-bit words, 12-bit immediates, register numbers. -/

namespace Sys2Proof

/-- A memory byte, a general register or a timer (R20, R29, R30, R50). -/
abbrev Byte := BitVec 8

/-- A 16-bit quantity: an instruction word, I, PC, a stack entry (R23, R24, R27, R80). -/
abbrev Word := BitVec 16

/-- The 12-bit immediate address `NNN` (R86). -/
abbrev Addr12 := BitVec 12

/-- A register number 0..15 (R20, R86), and as well a key number (R32) or the row count `N` (R86). -/
abbrev Reg := Fin 16

end Sys2Proof
end

