-- ==== Sys2Proof/Config.lean ====
section
/-! DEFINITION. What an implementation fixes (the open parameters of R8) and the free values (R9, R213). -/

namespace Sys2Proof

/-- Parameter `SYS_BEHAVIOUR` (R8, D2): whether `0NNN` is a no-op row or a decode miss. -/
inductive SysBehaviour where
  | nop
  | decodeMiss
deriving DecidableEq, Repr

/-- Parameter `VF_ORDER` (R8, D5): which write to VF is the last when X = F in 8XY1..8XYE. -/
inductive VfOrder where
  | flagLast
  | resultLast
deriving DecidableEq, Repr

/-- Parameter `ADDI_VF_ELSE` (R8, D6): what ADD I,Vx does to VF when bits 15:12 of the new I are zero. -/
inductive AddIVfElse where
  | keep
  | zero
deriving DecidableEq, Repr

/-- Parameter `DRW_COORD` (R8, D7): whether DRW reads V[X], V[Y] after or before it clears VF. -/
inductive DrwCoord where
  | afterClear
  | beforeClear
deriving DecidableEq, Repr

/-- The 80 bytes of the font table at 0x000..0x04F (R7, R62). -/
abbrev Font := Vector Byte 80

/-- The open parameters of R8. They stand in `State.params`, which no step changes, so that a claim about
every state is a claim about every value of them (assumption 1). -/
structure Params where
  sysBehaviour : SysBehaviour
  vfOrder      : VfOrder
  addIVfElse   : AddIVfElse
  drwCoord     : DrwCoord
  ipfDefault   : Nat
  font         : Font
deriving DecidableEq, Repr

/-- `IPF_DEFAULT` is a natural number >= 1 (R8). -/
abbrev Params.wf (p : Params) : Prop := 1 ≤ p.ipfDefault

/-- Glyphs 0 to 3 of the conventional font, the default of parameter `FONT` (R63). -/
def fontGlyphs0to3 : Vector Byte 20 :=
  #v[0xF0, 0x90, 0x90, 0x90, 0xF0,  0x20, 0x60, 0x20, 0x20, 0x70,
     0xF0, 0x10, 0xF0, 0x80, 0xF0,  0xF0, 0x10, 0xF0, 0x10, 0xF0]

/-- Glyphs 4 to 7 (R63). -/
def fontGlyphs4to7 : Vector Byte 20 :=
  #v[0x90, 0x90, 0xF0, 0x10, 0x10,  0xF0, 0x80, 0xF0, 0x10, 0xF0,
     0xF0, 0x80, 0xF0, 0x90, 0xF0,  0xF0, 0x10, 0x20, 0x40, 0x40]

/-- Glyphs 8 to B (R63). -/
def fontGlyphs8toB : Vector Byte 20 :=
  #v[0xF0, 0x90, 0xF0, 0x90, 0xF0,  0xF0, 0x90, 0xF0, 0x10, 0xF0,
     0xF0, 0x90, 0xF0, 0x90, 0x90,  0xE0, 0x90, 0xE0, 0x90, 0xE0]

/-- Glyphs C to F (R63). -/
def fontGlyphsCtoF : Vector Byte 20 :=
  #v[0xF0, 0x80, 0x80, 0x80, 0xF0,  0xE0, 0x90, 0x90, 0x90, 0xE0,
     0xF0, 0x80, 0xF0, 0x80, 0xF0,  0xF0, 0x80, 0xF0, 0x80, 0x80]

/-- The default of parameter `FONT` (R63, D31: from general knowledge, not in the source). -/
def defaultFont : Font :=
  fontGlyphs0to3 ++ fontGlyphs4to7 ++ fontGlyphs8toB ++ fontGlyphsCtoF

/-- The values that a deterministic simulator uses (D2, D5, D6, D7, D31, D32). DESIGN CHOICE of the spec, not
of the source: unsafe for a claim about `State.reset` alone (assumption 1). -/
def Params.default : Params where
  sysBehaviour := .nop
  vfOrder      := .flagLast
  addIVfElse   := .keep
  drwCoord     := .beforeClear
  ipfDefault   := 10
  font         := defaultFont

/-- The draw `draw_byte()` of RND (R9, R132, D33): a free byte for the n-th free value taken. -/
opaque Config.drawByte : Nat → Byte

/-- The draw `burst` of a tick whose budget the environment's moves do not name (R9, R176, D18; DESIGN CHOICE, assumption 4). -/
opaque Config.burst : Nat → Nat

/-- Whether the k-th location that a faulting instruction would write before its failing check holds its new
value (R58, R213, U1: each such location is either its old or its new value; DESIGN CHOICE, assumption 9). The
first argument is the number of free values taken so far. -/
opaque Config.landed : Nat → Nat → Bool

/-- The string `GetMnemonic` returns for a word (R205, D38: unspecified; DESIGN CHOICE, assumption 17). -/
opaque Config.mnemonicText : Word → String

end Sys2Proof
end

