-- ==== Sys2Proof/Syntax.lean ====
section
/-! DEFINITION. The instructions: one constructor per row of spec/opcode_table.json (R88), in its order. -/

namespace Sys2Proof

/-- The 35 instructions of R88. `x`, `y` are register numbers, `n` a row count, `nn` a byte, `nnn` a 12-bit
address (R82, R86). -/
inductive Instr where
  /-- `SYS addr`, 0NNN (R100). -/
  | sys (nnn : Addr12)
  /-- `CLS`, 00E0 (R150). -/
  | cls
  /-- `RET`, 00EE (R101). -/
  | ret
  /-- `JP addr`, 1NNN (R102). -/
  | jp (nnn : Addr12)
  /-- `CALL addr`, 2NNN (R103). -/
  | call (nnn : Addr12)
  /-- `SE Vx, byte`, 3XNN (R104). -/
  | seImm (x : Reg) (nn : Byte)
  /-- `SNE Vx, byte`, 4XNN (R105). -/
  | sneImm (x : Reg) (nn : Byte)
  /-- `SE Vx, Vy`, 5XY0 (R106). -/
  | seReg (x y : Reg)
  /-- `LD Vx, byte`, 6XNN (R120). -/
  | ldImm (x : Reg) (nn : Byte)
  /-- `ADD Vx, byte`, 7XNN (R121). -/
  | addImm (x : Reg) (nn : Byte)
  /-- `LD Vx, Vy`, 8XY0 (R122). -/
  | ldReg (x y : Reg)
  /-- `OR Vx, Vy`, 8XY1 (R124). -/
  | orReg (x y : Reg)
  /-- `AND Vx, Vy`, 8XY2 (R125). -/
  | andReg (x y : Reg)
  /-- `XOR Vx, Vy`, 8XY3 (R126). -/
  | xorReg (x y : Reg)
  /-- `ADD Vx, Vy`, 8XY4 (R127). -/
  | addReg (x y : Reg)
  /-- `SUB Vx, Vy`, 8XY5 (R128). -/
  | subReg (x y : Reg)
  /-- `SHR Vx, Vy`, 8XY6 (R129). -/
  | shr (x y : Reg)
  /-- `SUBN Vx, Vy`, 8XY7 (R130). -/
  | subn (x y : Reg)
  /-- `SHL Vx, Vy`, 8XYE (R131). -/
  | shl (x y : Reg)
  /-- `SNE Vx, Vy`, 9XY0 (R107). -/
  | sneReg (x y : Reg)
  /-- `LD I, addr`, ANNN (R140). -/
  | ldI (nnn : Addr12)
  /-- `JP V0, addr`, BNNN (R108). -/
  | jpV0 (nnn : Addr12)
  /-- `RND Vx, byte`, CXNN (R132). -/
  | rnd (x : Reg) (nn : Byte)
  /-- `DRW Vx, Vy, n`, DXYN (R151). -/
  | drw (x y n : Reg)
  /-- `SKP Vx`, EX9E (R160). -/
  | skp (x : Reg)
  /-- `SKNP Vx`, EXA1 (R161). -/
  | sknp (x : Reg)
  /-- `LD Vx, DT`, FX07 (R163). -/
  | ldVxDt (x : Reg)
  /-- `LD Vx, K`, FX0A (R164). -/
  | ldVxK (x : Reg)
  /-- `LD DT, Vx`, FX15 (R165). -/
  | ldDtVx (x : Reg)
  /-- `LD ST, Vx`, FX18 (R166). -/
  | ldStVx (x : Reg)
  /-- `ADD I, Vx`, FX1E (R141). -/
  | addI (x : Reg)
  /-- `LD F, Vx`, FX29 (R142). -/
  | ldF (x : Reg)
  /-- `BCD Vx`, FX33 (R143). -/
  | bcd (x : Reg)
  /-- `LD [I], Vx`, FX55 (R144). -/
  | stBlock (x : Reg)
  /-- `LD Vx, [I]`, FX65 (R145). -/
  | ldBlock (x : Reg)
deriving DecidableEq, Repr

end Sys2Proof
end

