-- ==== Sys2Proof/Decode.lean ====
section
/-! DEFINITION. Decoding a word (R80 to R93), total and rejecting by name, and the encoder from the same table. -/

namespace Sys2Proof

/-- The big-endian word of two bytes, the first from the lower address (R54, R80). -/
def wordOfBytes (hi lo : Byte) : Word := BitVec.ofNat 16 (hi.toNat * 256 + lo.toNat)

/-- The byte a word stores at the lower address, its bits 15:8 (R54). -/
def hiByte (w : Word) : Byte := BitVec.ofNat 8 (w.toNat / 256)

/-- The byte a word stores at the higher address, its bits 7:0 (R54). -/
def loByte (w : Word) : Byte := BitVec.ofNat 8 w.toNat

/-- The major nibble `w[15:12]` (R85, R87). -/
def fieldOp (w : Word) : Nat := w.toNat / 4096

/-- `X = w[11:8]` (R82). -/
def fieldX (w : Word) : Reg := Fin.ofNat 16 (w.toNat / 256)

/-- `Y = w[7:4]` (R82). -/
def fieldY (w : Word) : Reg := Fin.ofNat 16 (w.toNat / 16)

/-- `N = w[3:0]` (R82). -/
def fieldN (w : Word) : Reg := Fin.ofNat 16 w.toNat

/-- `NN = w[7:0]` (R82). -/
def fieldNN (w : Word) : Byte := BitVec.ofNat 8 w.toNat

/-- `NNN = w[11:0]` (R82). -/
def fieldNNN (w : Word) : Addr12 := BitVec.ofNat 12 w.toNat

/-- Major nibble 0: CLS and RET before SYS (R84), SYS only where `SYS_BEHAVIOUR = Nop` (R88, R90). -/
def decodeZero (sys : SysBehaviour) (w : Word) : Option Instr :=
  if w = 0x00E0 then some .cls
  else if w = 0x00EE then some .ret
  else match sys with
    | .nop => some (.sys (fieldNNN w))
    | .decodeMiss => none

/-- Major nibble 8, by the function nibble `w[3:0]` (R87). -/
def decodeAlu (w : Word) : Option Instr :=
  match (fieldN w).val with
  | 0x0 => some (.ldReg (fieldX w) (fieldY w))
  | 0x1 => some (.orReg (fieldX w) (fieldY w))
  | 0x2 => some (.andReg (fieldX w) (fieldY w))
  | 0x3 => some (.xorReg (fieldX w) (fieldY w))
  | 0x4 => some (.addReg (fieldX w) (fieldY w))
  | 0x5 => some (.subReg (fieldX w) (fieldY w))
  | 0x6 => some (.shr (fieldX w) (fieldY w))
  | 0x7 => some (.subn (fieldX w) (fieldY w))
  | 0xE => some (.shl (fieldX w) (fieldY w))
  | _ => none

/-- Major nibble E, by the function byte `w[7:0]` (R87). -/
def decodeKey (w : Word) : Option Instr :=
  match (fieldNN w).toNat with
  | 0x9E => some (.skp (fieldX w))
  | 0xA1 => some (.sknp (fieldX w))
  | _ => none

/-- Major nibble F, by the function byte `w[7:0]` (R87). -/
def decodeMisc (w : Word) : Option Instr :=
  match (fieldNN w).toNat with
  | 0x07 => some (.ldVxDt (fieldX w))
  | 0x0A => some (.ldVxK (fieldX w))
  | 0x15 => some (.ldDtVx (fieldX w))
  | 0x18 => some (.ldStVx (fieldX w))
  | 0x1E => some (.addI (fieldX w))
  | 0x29 => some (.ldF (fieldX w))
  | 0x33 => some (.bcd (fieldX w))
  | 0x55 => some (.stBlock (fieldX w))
  | 0x65 => some (.ldBlock (fieldX w))
  | _ => none

/-- The decoder: the table entry of a word, or none for a decode miss (R83, R87, R90). `sys` is parameter
`SYS_BEHAVIOUR`, the only thing besides the word that decoding depends on (R93). -/
def decode (sys : SysBehaviour) (w : Word) : Option Instr :=
  match fieldOp w with
  | 0x0 => decodeZero sys w
  | 0x1 => some (.jp (fieldNNN w))
  | 0x2 => some (.call (fieldNNN w))
  | 0x3 => some (.seImm (fieldX w) (fieldNN w))
  | 0x4 => some (.sneImm (fieldX w) (fieldNN w))
  | 0x5 => if (fieldN w).val = 0 then some (.seReg (fieldX w) (fieldY w)) else none
  | 0x6 => some (.ldImm (fieldX w) (fieldNN w))
  | 0x7 => some (.addImm (fieldX w) (fieldNN w))
  | 0x8 => decodeAlu w
  | 0x9 => if (fieldN w).val = 0 then some (.sneReg (fieldX w) (fieldY w)) else none
  | 0xA => some (.ldI (fieldNNN w))
  | 0xB => some (.jpV0 (fieldNNN w))
  | 0xC => some (.rnd (fieldX w) (fieldNN w))
  | 0xD => some (.drw (fieldX w) (fieldY w) (fieldN w))
  | 0xE => decodeKey w
  | 0xF => decodeMisc w
  | _ => none

/-- Why bytes hold no instruction. -/
inductive DecodeReject where
  /-- Fewer than the two bytes of an instruction (R80). -/
  | truncated
  /-- The word matches no table entry (R90). -/
  | decodeMiss
deriving DecidableEq, Repr

/-- What decoding a byte sequence answers: an instruction and the bytes after it, or a named rejection. -/
inductive Decoded where
  | instr (i : Instr) (rest : List Byte)
  | reject (r : DecodeReject)
deriving DecidableEq, Repr

/-- Decoding bytes, total: every instruction is exactly two bytes (R80). -/
def decodeBytes (sys : SysBehaviour) : List Byte → Decoded
  | [] => .reject .truncated
  | [_] => .reject .truncated
  | hi :: lo :: rest =>
    match decode sys (wordOfBytes hi lo) with
    | some i => .instr i rest
    | none => .reject .decodeMiss

/-- The instruction the decoder reads from an opcode-table word of `nbits` bits, under the value of
`SYS_BEHAVIOUR` for which the table has all its rows (R88). -/
def decodeTableWord (nbits w : Nat) : Option Instr :=
  let word : Word := BitVec.ofNat 16 (w % 2 ^ nbits)
  match decodeBytes .nop [hiByte word, loByte word] with
  | .instr i _ => some i
  | .reject _ => none

/-- Format A: major nibble, NNN (R85). -/
def encodeA (op : Nat) (nnn : Addr12) : Word := BitVec.ofNat 16 (op * 4096 + nnn.toNat)

/-- Format XNN: major nibble, X, NN; and format X, whose low byte is the function byte (R85). -/
def encodeXNN (op : Nat) (x : Reg) (nn : Byte) : Word :=
  BitVec.ofNat 16 (op * 4096 + x.val * 256 + nn.toNat)

/-- Format XYN: major nibble, X, Y, N; and format XY, whose low nibble is the function nibble (R85). -/
def encodeXYN (op : Nat) (x y n : Reg) : Word :=
  BitVec.ofNat 16 (op * 4096 + x.val * 256 + y.val * 16 + n.val)

/-- The word of an instruction, from the patterns of R88. -/
def encode : Instr → Word
  | .sys nnn => encodeA 0x0 nnn
  | .cls => 0x00E0
  | .ret => 0x00EE
  | .jp nnn => encodeA 0x1 nnn
  | .call nnn => encodeA 0x2 nnn
  | .seImm x nn => encodeXNN 0x3 x nn
  | .sneImm x nn => encodeXNN 0x4 x nn
  | .seReg x y => encodeXYN 0x5 x y 0x0
  | .ldImm x nn => encodeXNN 0x6 x nn
  | .addImm x nn => encodeXNN 0x7 x nn
  | .ldReg x y => encodeXYN 0x8 x y 0x0
  | .orReg x y => encodeXYN 0x8 x y 0x1
  | .andReg x y => encodeXYN 0x8 x y 0x2
  | .xorReg x y => encodeXYN 0x8 x y 0x3
  | .addReg x y => encodeXYN 0x8 x y 0x4
  | .subReg x y => encodeXYN 0x8 x y 0x5
  | .shr x y => encodeXYN 0x8 x y 0x6
  | .subn x y => encodeXYN 0x8 x y 0x7
  | .shl x y => encodeXYN 0x8 x y 0xE
  | .sneReg x y => encodeXYN 0x9 x y 0x0
  | .ldI nnn => encodeA 0xA nnn
  | .jpV0 nnn => encodeA 0xB nnn
  | .rnd x nn => encodeXNN 0xC x nn
  | .drw x y n => encodeXYN 0xD x y n
  | .skp x => encodeXNN 0xE x 0x9E
  | .sknp x => encodeXNN 0xE x 0xA1
  | .ldVxDt x => encodeXNN 0xF x 0x07
  | .ldVxK x => encodeXNN 0xF x 0x0A
  | .ldDtVx x => encodeXNN 0xF x 0x15
  | .ldStVx x => encodeXNN 0xF x 0x18
  | .addI x => encodeXNN 0xF x 0x1E
  | .ldF x => encodeXNN 0xF x 0x29
  | .bcd x => encodeXNN 0xF x 0x33
  | .stBlock x => encodeXNN 0xF x 0x55
  | .ldBlock x => encodeXNN 0xF x 0x65

/-- The match value and the mask of an instruction's row (R88); an entry matches `w` when
`(w & mask) == match` (R81). -/
def rowPattern : Instr → Word × Word
  | .sys _ => (0x0000, 0xF000)
  | .cls => (0x00E0, 0xFFFF)
  | .ret => (0x00EE, 0xFFFF)
  | .jp _ => (0x1000, 0xF000)
  | .call _ => (0x2000, 0xF000)
  | .seImm _ _ => (0x3000, 0xF000)
  | .sneImm _ _ => (0x4000, 0xF000)
  | .seReg _ _ => (0x5000, 0xF00F)
  | .ldImm _ _ => (0x6000, 0xF000)
  | .addImm _ _ => (0x7000, 0xF000)
  | .ldReg _ _ => (0x8000, 0xF00F)
  | .orReg _ _ => (0x8001, 0xF00F)
  | .andReg _ _ => (0x8002, 0xF00F)
  | .xorReg _ _ => (0x8003, 0xF00F)
  | .addReg _ _ => (0x8004, 0xF00F)
  | .subReg _ _ => (0x8005, 0xF00F)
  | .shr _ _ => (0x8006, 0xF00F)
  | .subn _ _ => (0x8007, 0xF00F)
  | .shl _ _ => (0x800E, 0xF00F)
  | .sneReg _ _ => (0x9000, 0xF00F)
  | .ldI _ => (0xA000, 0xF000)
  | .jpV0 _ => (0xB000, 0xF000)
  | .rnd _ _ => (0xC000, 0xF000)
  | .drw _ _ _ => (0xD000, 0xF000)
  | .skp _ => (0xE09E, 0xF0FF)
  | .sknp _ => (0xE0A1, 0xF0FF)
  | .ldVxDt _ => (0xF007, 0xF0FF)
  | .ldVxK _ => (0xF00A, 0xF0FF)
  | .ldDtVx _ => (0xF015, 0xF0FF)
  | .ldStVx _ => (0xF018, 0xF0FF)
  | .addI _ => (0xF01E, 0xF0FF)
  | .ldF _ => (0xF029, 0xF0FF)
  | .bcd _ => (0xF033, 0xF0FF)
  | .stBlock _ => (0xF055, 0xF0FF)
  | .ldBlock _ => (0xF065, 0xF0FF)

end Sys2Proof
end

