-- ==== Sys2Proof/Machine/State.lean ====
section
/-! DEFINITION. The state of the core as plain data (10_state.md), the moves of the host and the timer, and reset. -/

namespace Sys2Proof.Machine

/-- The fault codes of R211. A fault is TAKEN as a next state that records its code in `HALT_CAUSE` (R213), so
no step of the model answers `Host.Outcome.fault` (assumption 2: safe). -/
inductive Fault where
  /-- RET with an empty stack (R101). -/
  | stackUnderflow
  /-- SKP or SKNP with V[X] > 15 (R162). -/
  | keyIndexOutOfRange
  /-- A data access of BCD, LD [I],Vx, LD Vx,[I] or DRW at an address >= 4096 (R53). -/
  | memoryOutOfRange
  /-- The instruction unit at PC = 4095 (R171). -/
  | fetchOutOfRange
  /-- A register index above 15: raised by nothing, since X and Y are 4-bit fields (R211). -/
  | registerIndexOutOfRange
  /-- A push on a full stack: raised by nothing, since the stack is unbounded (R28, R211). -/
  | stackOverflow
deriving DecidableEq, Repr

/-- Why an instruction has no meaning in the model. -/
inductive Refusal where
  /-- An instruction of the opcode table not yet modelled: no arm of `exec` raises it any more. Safe. -/
  | notModelled (mnemonic : String)
deriving DecidableEq, Repr

/-- `SCHED_STATE` (R35). -/
inductive SchedState where
  | stopped
  | running
  | paused
  | steppingFrame
deriving DecidableEq, Repr

/-- `HALT_CAUSE` (R40). -/
inductive HaltCause where
  | none
  | breakpoint (addr : Nat)
  | decodeMiss
  | pcPastEnd
  | fault (code : Fault)
deriving DecidableEq, Repr

/-- Memory as a list of (address, byte), addresses strictly rising; an unlisted address holds its reset contents
(R44, R60; DEDUCED, assumption 10). `Memory.wf` in Machine/Ops.lean is its canonical form. -/
abbrev Memory := List Host.Cell

/-- `SURF[x][y]`, column x of 64, row y of 32 (R31). -/
abbrev Surface := Vector (Vector Bool 32) 64

/-- One breakpoint (R39): its address, and `hitCount`, `isActive`. -/
structure BpEntry where
  addr     : Nat
  hitCount : Nat
  isActive : Bool
deriving DecidableEq, Repr

/-- `BP` as a list of entries, addresses strictly rising (R39). -/
abbrev BpTable := List BpEntry

/-- The thirteen fields of a snapshot (R206). `mem` is listed as `State.mem` is (DESIGN CHOICE, assumption 11). -/
structure Snapshot where
  mem        : Memory
  v          : Vector Byte 16
  stack      : List Word
  pc         : Word
  i          : Word
  dt         : Byte
  st         : Byte
  beep       : Bool
  ipf        : Nat
  frameCount : Nat
  surf       : Surface
  progBytes  : List Byte
  progCount  : Nat
deriving DecidableEq, Repr

/-- What a `NewMessage` is about; its text is unspecified (R182, assumption 8). -/
inductive Message where
  | fault (code : Fault)
  | loadFailed
  | restoreRejected
deriving DecidableEq, Repr

/-- The events of R182, and the values that host commands and accessors return (R196, R197, R201, R203 to R207). -/
inductive Output where
  | tick
  | beepStatus (on : Bool)
  | programLoaded (byteCount : Nat)
  | newMessage (about : Message)
  | breakpointHit (handle : Nat)
  | loadReply (ok : Bool)
  | storeReply (snapshot : Option Snapshot)
  | restoreReply (ok : Bool)
  | addBreakpointReply (ok : Bool) (handle : Nat)
  | removeBreakpointReply (ok : Bool) (handle : Nat)
  | surfaceView (surf : Surface)
  | registersView (v : Vector Byte 16)
  | iRegisterView (i : Word)
  | programCounterView (pc : Word)
  | memoryView (mem : Memory)
  | opcodeReply (word : Option Word)
  | mnemonicReply (text : String)
  | schedStateView (st : SchedState)
  | haltCauseView (c : HaltCause)
deriving DecidableEq, Repr

/-- The host's commands and accessors (R170, R42). -/
inductive Command where
  /-- `StartAsync` (R190). -/
  | startAsync
  /-- The cancellation of `StartAsync`'s token, at the point where the scheduler observes it (R194; DESIGN CHOICE,
  assumption 14). -/
  | cancel
  /-- `Pause` (R191). -/
  | pause
  /-- `Go` (R192). -/
  | go
  /-- `Step` (R185). -/
  | step
  /-- `StopAndReset` (R193, R240). -/
  | stopAndReset
  /-- `Load`; none stands for an image that cannot be read (R201; assumptions 13, 25). -/
  | load (bytes : Option (List Byte))
  /-- `UpdateKeyState` (R202). -/
  | updateKeyState (key : Nat) (pressed : Bool)
  /-- `TryAddBreakpoint` (R196; a 16-bit address, PRESUMED, assumption 15). -/
  | tryAddBreakpoint (addr : Word)
  /-- `TryRemoveBreakpoint` (R197). -/
  | tryRemoveBreakpoint (addr : Word)
  /-- `TryStore`; the argument says whether writing the snapshot out succeeds (R206; assumption 13). -/
  | tryStore (ioOk : Bool)
  /-- `TryRestore`; none stands for a snapshot that cannot be read (R207; assumption 25). -/
  | tryRestore (snapshot : Option Snapshot)
  /-- The accessor `Surface` (R203). -/
  | getSurface
  /-- The accessor `Registers` (R203). -/
  | getRegisters
  /-- The accessor `IRegister` (R203). -/
  | getIRegister
  /-- The accessor `ProgramCounter` (R203). -/
  | getProgramCounter
  /-- The accessor `Memory` (R203). -/
  | getMemory
  /-- `GetOpcode` (R204). -/
  | getOpcode (addr : Nat)
  /-- `GetMnemonic` (R205). -/
  | getMnemonic (opcode : Word)
  /-- The host's read of `SCHED_STATE` (R35, R42; DESIGN CHOICE, assumption 23). -/
  | getSchedState
  /-- The host's read of `HALT_CAUSE` (R40, R42; DESIGN CHOICE, assumption 23). -/
  | getHaltCause
deriving DecidableEq, Repr

/-- One item of the total order of moves (R208): the core goes on by itself, the timer fires with a named burst
(R176), or the host gives a command. -/
inductive Move where
  | core
  | tickFire (burst : Nat)
  | host (c : Command)
deriving DecidableEq, Repr

/-- The state of the machine. The fields down to `progBytes` are the spec's (10_state.md); `params` are the open
parameters of R8; `burst`, `draws`, `moves` and `out` are the model's own (assumptions 3, 5, 6, 8). -/
structure State where
  /-- V0..VF (R20, R21). -/
  v : Vector Byte 16
  /-- The index register (R23). -/
  i : Word
  /-- The program counter (R24). -/
  pc : Word
  /-- Return addresses, top first, without a cap (R27, R28; assumption 19). -/
  stack : List Word
  /-- The delay timer (R29). -/
  dt : Byte
  /-- The sound timer (R30). -/
  st : Byte
  /-- The 4096 bytes of memory (R50). -/
  mem : Memory
  /-- The display surface (R31). -/
  surf : Surface
  /-- The pressed-key mask (R32). -/
  keys : Word
  /-- The key of the most recent release, not yet consumed (R33). -/
  lastKey : Option Reg
  /-- The scheduler state (R35). -/
  schedState : SchedState
  /-- Instructions per frame (R36). -/
  ipf : Nat
  /-- The beep status (R37). -/
  beep : Bool
  /-- Instructions remaining in the step frame (R38). -/
  frameCount : Nat
  /-- The breakpoint table (R39). -/
  bps : BpTable
  /-- Why the scheduler last halted (R40). -/
  haltCause : HaltCause
  /-- The loaded program's byte count (R41). -/
  progCount : Nat
  /-- The loaded program's bytes (R41). -/
  progBytes : List Byte
  /-- The open parameters (R8, assumption 1); no step changes them. -/
  params : Params
  /-- The tick in progress: how many units its burst may still run, or none between ticks (R175). -/
  burst : Option Nat
  /-- How many free values have been taken (R9, R213). -/
  draws : Nat
  /-- The moves still to come (R208). -/
  moves : List Move
  /-- Events and replies given to the host, newest first (R170, R182). -/
  out : List Output
deriving DecidableEq, Repr

/-- The reset state of R44 for the parameters `p`. The model's own fields: no tick in progress, no free value
taken, no move pending, no event given (assumptions 3, 5, 6, 8). -/
def State.resetWith (p : Params) : State where
  v := Vector.replicate 16 0
  i := 0
  pc := 0x200
  stack := []
  dt := 0
  st := 0
  mem := []
  surf := Vector.replicate 64 (Vector.replicate 32 false)
  keys := 0
  lastKey := none
  schedState := .stopped
  ipf := p.ipfDefault
  beep := false
  frameCount := 0
  bps := []
  haltCause := .none
  progCount := 0
  progBytes := []
  params := p
  burst := none
  draws := 0
  moves := []
  out := []

/-- The machine right after reset or power-on (R44, R241), with the parameters at the spec's simulator defaults
(assumption 1). -/
def State.reset : State := State.resetWith Params.default

end Sys2Proof.Machine
end

