-- ==== Sys2Proof/Machine/Ops.lean ====
section
/-! DEFINITION. The named operations over memory, the surface, PC, the stack, the breakpoint table, events, halts
and faults. -/

namespace Sys2Proof.Machine

/-- The outcome of a step or of an instruction. -/
abbrev Result := Host.Outcome State Fault Refusal

/-! ## Memory (20_memory.md) -/

/-- What an unlisted address reads as: its reset contents, the font at 0x000..0x04F and 0 elsewhere (R44, R60). -/
def Memory.background (font : Font) (a : Nat) : Byte := if h : a < 80 then font[a] else 0

/-- The byte at address `a`. -/
def Memory.read (font : Font) : Memory → Nat → Byte
  | [], a => Memory.background font a
  | (k, b) :: m, a => if k = a then b else Memory.read font m a

/-- Put `v` at address `a`, keeping the canonical form: a byte equal to the background is not listed. -/
def Memory.write (font : Font) (a : Nat) (v : Byte) : Memory → Memory
  | [] => if v = Memory.background font a then [] else [(a, v)]
  | (k, b) :: m =>
    if k < a then (k, b) :: Memory.write font a v m
    else
      let rest := if k = a then m else (k, b) :: m
      if v = Memory.background font a then rest else (a, v) :: rest

/-- The canonical form: addresses strictly rising and below 4096, no entry equal to the background. -/
abbrev Memory.wf (font : Font) (m : Memory) : Prop :=
  m.Pairwise (fun c d => c.1 < d.1) ∧ ∀ c ∈ m, c.1 < 4096 ∧ c.2 ≠ Memory.background font c.1

/-- Write bytes at rising addresses from `a` (R57), each only where `pick` says so and the address exists (R53). -/
def Memory.writeWhere (font : Font) : (Nat → Bool) → Nat → List Byte → Memory → Memory
  | _, _, [], m => m
  | pick, a, b :: bs, m =>
    Memory.writeWhere font (fun k => pick (k + 1)) (a + 1) bs
      (if a < 4096 ∧ pick 0 then Memory.write font a b m else m)

/-- The byte the machine's memory holds at `a`. -/
def readMem (s : State) (a : Nat) : Byte := Memory.read s.params.font s.mem a

/-- Whether every byte of the `n` bytes from `base` passes the range check of R53; addresses never wrap (R52). -/
abbrev spanInRange (base n : Nat) : Prop := n = 0 ∨ base + n ≤ 4096

/-- The `n` bytes from `I`, lowest address first, or none where one is out of range (R12, R52, R53, R57). -/
def readSpan (n : Nat) (s : State) : Option (List Byte) :=
  if spanInRange s.i.toNat n then some ((List.range n).map fun k => readMem s (s.i.toNat + k)) else none

/-- Write `bs` from `I` on, each byte where `pick` says so (R12, R52, R57). -/
def writeAtI (pick : Nat → Bool) (bs : List Byte) (s : State) : State :=
  { s with mem := Memory.writeWhere s.params.font pick s.i.toNat bs s.mem }

/-! ## Display surface (R31) -/

/-- `SURF[x][y]`; false outside the grid, where there is no pixel. -/
def getPixel (g : Surface) (x y : Nat) : Bool := if h : x < 64 ∧ y < 32 then g[x][y] else false

/-- `SURF[x][y] <- b`; nothing outside the grid. -/
def setPixel (g : Surface) (x y : Nat) (b : Bool) : Surface :=
  if h : x < 64 ∧ y < 32 then g.set x (g[x].set y b) else g

/-- Every pixel false (R150). -/
def blankSurface : Surface := Vector.replicate 64 (Vector.replicate 32 false)

/-- The bits of a sprite byte, MSB first: the MSB is the leftmost pixel (R62, R151). -/
def spriteBits (row : Byte) : List Bool := (List.range 8).map fun b => row.getLsbD (7 - b)

/-- Plot the bits of one row from column `x`, stopping at the right edge (R151). The Bool of the pair is the
collision flag: set when a set pixel is cleared (R152). -/
def plotBits : List Bool → Nat → Nat → Surface × Bool → Surface × Bool
  | [], _, _, p => p
  | on :: bits, x, y, p =>
    if 64 ≤ x then p
    else plotBits bits (x + 1) y
      (if on then (setPixel p.1 x y (!getPixel p.1 x y), p.2 || getPixel p.1 x y) else p)

/-- Plot the rows from row `y` down, stopping at the bottom edge (R151). -/
def plotRows : List Byte → Nat → Nat → Surface × Bool → Surface × Bool
  | [], _, _, p => p
  | row :: rows, x, y, p =>
    if 32 ≤ y then p else plotRows rows x (y + 1) (plotBits (spriteBits row) x y p)

/-! ## Program counter and stack -/

/-- `return ADVANCE`: PC + 2 (R13, R171 step 7), in 16 bits (DEDUCED, assumption 20). -/
def advance (s : State) : State := { s with pc := s.pc + 2 }

/-- PC + 4 where the condition holds, PC + 2 where not (R110). -/
def skipIf (c : Bool) (s : State) : State := { s with pc := if c then s.pc + 4 else s.pc + 2 }

/-- `PC <- target` (R12). -/
def jumpTo (target : Word) (s : State) : State := { s with pc := target }

/-- `push(v)` (R12, R27). -/
def push (w : Word) (s : State) : State := { s with stack := w :: s.stack }

/-! ## Events, halts and faults -/

/-- Emit an event or a reply to the host (R170, R182). -/
def emit (o : Output) (s : State) : State := { s with out := o :: s.out }

/-- The scheduler halts into Paused with a cause (R175, R177, R185). -/
def halt (c : HaltCause) (s : State) : State := { s with haltCause := c, schedState := .paused }

/-- TAKING A FAULT (R213, R175, R185): PC stays at the faulting instruction, `HALT_CAUSE` records the code, the
scheduler is Paused, `NewMessage` is emitted. No vector, saved register or mode exists (R220). The host's `Go` and
`Step` are the return from a halt (R221), and a fault refuses both (R213): see `goCommand` and `stepCommand`. -/
def takeFault (code : Fault) (s : State) : State :=
  emit (.newMessage (.fault code)) (halt (.fault code) s)

/-- Take a fault after which the locations written before the failing check are free: one free value is used up
(R58, R213). -/
def takePartialFault (code : Fault) (s : State) : State :=
  takeFault code { s with draws := s.draws + 1 }

/-- Which of the faulting instruction's earlier writes have landed (R213, U1; DESIGN CHOICE, assumption 9). -/
def landed (s : State) : Nat → Bool := Config.landed s.draws

/-! ## Breakpoint table (R39) -/

/-- The entry at `a`, if any. -/
def BpTable.find (t : BpTable) (a : Nat) : Option BpEntry := t.find? fun e => e.addr == a

/-- Add a fresh entry, keeping addresses rising (R196). -/
def BpTable.insert (a : Nat) : BpTable → BpTable
  | [] => [⟨a, 0, false⟩]
  | e :: t => if e.addr < a then e :: BpTable.insert a t else ⟨a, 0, false⟩ :: e :: t

/-- Remove the entry at `a` (R197). -/
def BpTable.erase (a : Nat) (t : BpTable) : BpTable := t.filter fun e => e.addr != a

/-- Replace the counters of the entry at `a` (R172). -/
def BpTable.put (a : Nat) (hits : Nat) (active : Bool) (t : BpTable) : BpTable :=
  t.map fun e => if e.addr = a then ⟨a, hits, active⟩ else e

/-- The canonical form: addresses strictly rising, each even, 16-bit and at or above 0x200 (R39, R196). -/
abbrev BpTable.wf (t : BpTable) : Prop :=
  t.Pairwise (fun e f => e.addr < f.addr) ∧ ∀ e ∈ t, e.addr % 2 = 0 ∧ 0x200 ≤ e.addr ∧ e.addr < 65536

end Sys2Proof.Machine
end

