-- ==== Sys2Proof/Machine/Operands.lean ====
section
/-! DEFINITION. The operand forms: registers, immediates as words, the block at I, DRW's start, key numbers. -/

namespace Sys2Proof.Machine

/-- `V[x]` (R12, R20). -/
def getV (x : Reg) (s : State) : Byte := s.v[x.val]

/-- `V[x] <- b` (R12, R20). -/
def setV (x : Reg) (b : Byte) (s : State) : State := { s with v := s.v.set x.val b }

/-- `VF`, `V[15]` (R12, R21). -/
abbrev vf : Reg := 15

/-- `I <- w` (R12, R23). -/
def setI (w : Word) (s : State) : State := { s with i := w }

/-- `zext_16(NNN)` (R86). -/
def addrOf (nnn : Addr12) : Word := nnn.setWidth 16

/-- `NNN + V[0]`, the target of JP V0 (R108). -/
def v0Target (nnn : Addr12) (s : State) : Word := addrOf nnn + (getV 0 s).setWidth 16

/-- `I + V[X]` modulo 65536 (R141). -/
def iPlus (x : Reg) (s : State) : Word := s.i + (getV x s).setWidth 16

/-- The glyph address `V[X] * 5`, the whole byte used (R142). -/
def glyphAddr (x : Reg) (s : State) : Word := BitVec.ofNat 16 ((getV x s).toNat * 5)

/-- The hundreds, tens and ones of `V[X]` (R143). -/
def bcdDigits (x : Reg) (s : State) : List Byte :=
  let n := (getV x s).toNat
  [BitVec.ofNat 8 (n / 100), BitVec.ofNat 8 (n / 10 % 10), BitVec.ofNat 8 (n % 10)]

/-- `V[0]` to `V[X]`, in order (R144). -/
def regBlock (x : Reg) (s : State) : List Byte := s.v.toList.take (x.val + 1)

/-- Load `V[r] <- MEM[I + r]` for each `r <= X` whose address exists and that `pick` names (R145, R53). -/
def loadBlock (pick : Nat → Bool) (x : Reg) (s : State) : State :=
  { s with v := Vector.ofFn fun r =>
      if r.val ≤ x.val ∧ s.i.toNat + r.val < 4096 ∧ pick r.val then readMem s (s.i.toNat + r.val)
      else s.v[r.val] }

/-- `I <- I + X + 1` (R144, R145, R146). -/
def bumpI (x : Reg) (s : State) : State := { s with i := s.i + BitVec.ofNat 16 (x.val + 1) }

/-- DRW's start column and row (R151): read before or after VF is cleared, by parameter `DRW_COORD`. -/
def drwStart (x y : Reg) (s : State) : Nat × Nat :=
  let t := match s.params.drwCoord with
    | .beforeClear => s
    | .afterClear => setV vf 0 s
  ((getV x t).toNat % 64, (getV y t).toNat % 32)

/-- The key number in `V[X]`, none above 15 (R162). -/
def keyIndex (x : Reg) (s : State) : Option Nat :=
  if (getV x s).toNat ≤ 15 then some (getV x s).toNat else none

/-- `KEYS[k] = 1` (R32). -/
def keyPressed (k : Nat) (s : State) : Bool := s.keys.getLsbD k

end Sys2Proof.Machine
end

