-- ==== Sys2Proof/Machine/Flags.lean ====
section
/-! DEFINITION. Every flag computation (R22) and the order of the result and the flag (R123). -/

namespace Sys2Proof.Machine

/-- A flag value as a byte: 1 or 0. -/
def flagByte (b : Bool) : Byte := if b then 1 else 0

/-- The carry of `a + b`: 1 if the unsigned sum exceeds 255 (R127). -/
def addFlag (a b : Byte) : Byte := flagByte (255 < a.toNat + b.toNat)

/-- 1 if the first is strictly greater (R128). -/
def gtFlag (a b : Byte) : Byte := flagByte (b.toNat < a.toNat)

/-- 1 if the first is strictly less (R130). -/
def ltFlag (a b : Byte) : Byte := flagByte (a.toNat < b.toNat)

/-- The bit SHR shifts out, bit 0 (R129). -/
def shrFlag (b : Byte) : Byte := flagByte (b.getLsbD 0)

/-- The bit SHL shifts out, bit 7 (R131). -/
def shlFlag (b : Byte) : Byte := flagByte (b.getLsbD 7)

/-- VF after ADD I (R141): 1 where bits 15:12 of the new I are not all zero, else kept or 0 by `ADDI_VF_ELSE`. -/
def addIFlag (p : AddIVfElse) (newI : Word) (oldVf : Byte) : Byte :=
  if newI.toNat / 4096 ≠ 0 then 1
  else match p with
    | .keep => oldVf
    | .zero => 0

/-- `commit(r, f)` (R123): the result to `V[X]` and the flag to VF, in the order of parameter `VF_ORDER`. -/
def commit (x : Reg) (r f : Byte) (s : State) : State :=
  match s.params.vfOrder with
  | .flagLast => setV vf f (setV x r s)
  | .resultLast => setV x r (setV vf f s)

end Sys2Proof.Machine
end

