-- ==== Sys2Proof/Machine/Alu.lean ====
section
/-! DEFINITION. The register and arithmetic instructions (41_alu.md). -/

namespace Sys2Proof.Machine

/-- LD Vx, byte (R120). -/
def execLdImm (x : Reg) (nn : Byte) (s : State) : Result := .next (advance (setV x nn s))

/-- ADD Vx, byte (R121): modulo 256, no flag. -/
def execAddImm (x : Reg) (nn : Byte) (s : State) : Result := .next (advance (setV x (getV x s + nn) s))

/-- LD Vx, Vy (R122). -/
def execLdReg (x y : Reg) (s : State) : Result := .next (advance (setV x (getV y s) s))

/-- OR Vx, Vy (R124): and VF is cleared. -/
def execOrReg (x y : Reg) (s : State) : Result := .next (advance (commit x (getV x s ||| getV y s) 0 s))

/-- AND Vx, Vy (R125): and VF is cleared. -/
def execAndReg (x y : Reg) (s : State) : Result := .next (advance (commit x (getV x s &&& getV y s) 0 s))

/-- XOR Vx, Vy (R126): and VF is cleared. -/
def execXorReg (x y : Reg) (s : State) : Result := .next (advance (commit x (getV x s ^^^ getV y s) 0 s))

/-- ADD Vx, Vy (R127). -/
def execAddReg (x y : Reg) (s : State) : Result :=
  .next (advance (commit x (getV x s + getV y s) (addFlag (getV x s) (getV y s)) s))

/-- SUB Vx, Vy (R128): VF = 1 where V[X] > V[Y], strictly. -/
def execSubReg (x y : Reg) (s : State) : Result :=
  .next (advance (commit x (getV x s - getV y s) (gtFlag (getV x s) (getV y s)) s))

/-- SHR Vx, Vy (R129): the shift source is V[Y]. -/
def execShr (x y : Reg) (s : State) : Result :=
  .next (advance (commit x (getV y s >>> 1) (shrFlag (getV y s)) s))

/-- SUBN Vx, Vy (R130): VF = 1 where V[X] < V[Y], strictly. -/
def execSubn (x y : Reg) (s : State) : Result :=
  .next (advance (commit x (getV y s - getV x s) (ltFlag (getV x s) (getV y s)) s))

/-- SHL Vx, Vy (R131): the shift source is V[Y]. -/
def execShl (x y : Reg) (s : State) : Result :=
  .next (advance (commit x (getV y s <<< 1) (shlFlag (getV y s)) s))

/-- RND Vx, byte (R132): one free byte, masked (R9). -/
def execRnd (x : Reg) (nn : Byte) (s : State) : Result :=
  .next (advance (setV x (Config.drawByte s.draws &&& nn) { s with draws := s.draws + 1 }))

end Sys2Proof.Machine
end

