-- ==== Sys2Proof/Machine/Control.lean ====
section
/-! DEFINITION. The control-flow instructions (40_control_flow.md). -/

namespace Sys2Proof.Machine

/-- SYS (R100): no effect but the advance. Reached only where `SYS_BEHAVIOUR = Nop` (R88). -/
def execSys (_nnn : Addr12) (s : State) : Result := .next (advance s)

/-- RET (R101): pop into PC, or the fault StackUnderflow before anything is written. -/
def execRet (s : State) : Result :=
  match s.stack with
  | [] => .next (takeFault .stackUnderflow s)
  | a :: rest => .next (jumpTo a { s with stack := rest })

/-- JP (R102). -/
def execJp (nnn : Addr12) (s : State) : Result := .next (jumpTo (addrOf nnn) s)

/-- CALL (R103): push PC + 2, then jump. -/
def execCall (nnn : Addr12) (s : State) : Result := .next (jumpTo (addrOf nnn) (push (s.pc + 2) s))

/-- SE Vx, byte (R104). -/
def execSeImm (x : Reg) (nn : Byte) (s : State) : Result := .next (skipIf (getV x s == nn) s)

/-- SNE Vx, byte (R105). -/
def execSneImm (x : Reg) (nn : Byte) (s : State) : Result := .next (skipIf (getV x s != nn) s)

/-- SE Vx, Vy (R106). -/
def execSeReg (x y : Reg) (s : State) : Result := .next (skipIf (getV x s == getV y s) s)

/-- SNE Vx, Vy (R107). -/
def execSneReg (x y : Reg) (s : State) : Result := .next (skipIf (getV x s != getV y s) s)

/-- JP V0, addr (R108). -/
def execJpV0 (nnn : Addr12) (s : State) : Result := .next (jumpTo (v0Target nnn s) s)

end Sys2Proof.Machine
end

