-- ==== Sys2Proof/Machine/Display.lean ====
section
/-! DEFINITION. The display instructions (43_display.md). -/

namespace Sys2Proof.Machine

/-- CLS (R150). -/
def execCls (s : State) : Result := .next (advance { s with surf := blankSurface })

/-- DRW Vx, Vy, n (R151, R152): every sprite byte is read, and range-checked, before a pixel is plotted; on the
fault MemoryOutOfRange the surface is unchanged and VF is its old value or 0 (R213). -/
def execDrw (x y n : Reg) (s : State) : Result :=
  match readSpan n.val s with
  | some rows =>
    let start := drwStart x y s
    let drawn := plotRows rows start.1 start.2 (s.surf, false)
    .next (advance (setV vf (flagByte drawn.2) { s with surf := drawn.1 }))
  | none => .next (takePartialFault .memoryOutOfRange (if landed s 0 then setV vf 0 s else s))

end Sys2Proof.Machine
end

