-- ==== Sys2Proof/Machine/IndexMemory.lean ====
section
/-! DEFINITION. The index-register and memory instructions (42_index_memory.md). -/

namespace Sys2Proof.Machine

/-- LD I, addr (R140). -/
def execLdI (nnn : Addr12) (s : State) : Result := .next (advance (setI (addrOf nnn) s))

/-- ADD I, Vx (R141): I first, then VF; the operand is V[X] from before. -/
def execAddI (x : Reg) (s : State) : Result :=
  .next (advance (setV vf (addIFlag s.params.addIVfElse (iPlus x s) (getV vf s)) (setI (iPlus x s) s)))

/-- LD F, Vx (R142). -/
def execLdF (x : Reg) (s : State) : Result := .next (advance (setI (glyphAddr x s) s))

/-- BCD Vx (R143): three digits at I, or the fault MemoryOutOfRange with the digits before the failing address
free (R58, R213). -/
def execBcd (x : Reg) (s : State) : Result :=
  if spanInRange s.i.toNat 3 then .next (advance (writeAtI (fun _ => true) (bcdDigits x s) s))
  else .next (takePartialFault .memoryOutOfRange (writeAtI (landed s) (bcdDigits x s) s))

/-- LD [I], Vx (R144): V0..VX at I and I + X + 1, or the fault MemoryOutOfRange with the bytes before the failing
address free and I unchanged (R58, R213). -/
def execStBlock (x : Reg) (s : State) : Result :=
  if spanInRange s.i.toNat (x.val + 1) then
    .next (advance (bumpI x (writeAtI (fun _ => true) (regBlock x s) s)))
  else .next (takePartialFault .memoryOutOfRange (writeAtI (landed s) (regBlock x s) s))

/-- LD Vx, [I] (R145): V0..VX from I and I + X + 1, or the fault MemoryOutOfRange with the registers loaded before
the failing address free and I unchanged (R213). -/
def execLdBlock (x : Reg) (s : State) : Result :=
  if spanInRange s.i.toNat (x.val + 1) then .next (advance (bumpI x (loadBlock (fun _ => true) x s)))
  else .next (takePartialFault .memoryOutOfRange (loadBlock (landed s) x s))

end Sys2Proof.Machine
end

