-- ==== Sys2Proof/Machine/KeysTimers.lean ====
section
/-! DEFINITION. The key and timer instructions (44_keys_timers.md). -/

namespace Sys2Proof.Machine

/-- SKP Vx (R160), with the key-index check of R162 before anything else. -/
def execSkp (x : Reg) (s : State) : Result :=
  match keyIndex x s with
  | some k => .next (skipIf (keyPressed k s) s)
  | none => .next (takeFault .keyIndexOutOfRange s)

/-- SKNP Vx (R161), with the key-index check of R162 before anything else. -/
def execSknp (x : Reg) (s : State) : Result :=
  match keyIndex x s with
  | some k => .next (skipIf (!keyPressed k s) s)
  | none => .next (takeFault .keyIndexOutOfRange s)

/-- LD Vx, DT (R163). -/
def execLdVxDt (x : Reg) (s : State) : Result := .next (advance (setV x s.dt s))

/-- LD Vx, K (R164): a stall, which is a complete unit with PC unchanged, while no release is pending. -/
def execLdVxK (x : Reg) (s : State) : Result :=
  match s.lastKey with
  | none => .next s
  | some k => .next (advance (setV x (BitVec.ofNat 8 k.val) { s with lastKey := none }))

/-- LD DT, Vx (R165). -/
def execLdDtVx (x : Reg) (s : State) : Result := .next (advance { s with dt := getV x s })

/-- LD ST, Vx (R166): BEEP is not touched. -/
def execLdStVx (x : Reg) (s : State) : Result := .next (advance { s with st := getV x s })

end Sys2Proof.Machine
end

