-- ==== Sys2Proof/Machine/Unit.lean ====
section
/-! DEFINITION. The instruction unit (R171), the breakpoint hit-checker (R172), the frame end (R181) and the tick
(R175). -/

namespace Sys2Proof.Machine

/-- The big-endian word at PC and PC + 1 (R54, R171 step 4). -/
def fetchWord (s : State) : Word := wordOfBytes (readMem s s.pc.toNat) (readMem s (s.pc.toNat + 1))

/-- The breakpoint hit-checker (R172): whether it hits, and the state with the entry toggled. -/
def breakpointCheck (s : State) : Bool × State :=
  match BpTable.find s.bps s.pc.toNat with
  | none => (false, s)
  | some e =>
    if e.isActive then (false, { s with bps := BpTable.put e.addr e.hitCount false s.bps })
    else (true, emit (.breakpointHit e.addr) { s with bps := BpTable.put e.addr (e.hitCount + 1) true s.bps })

/-- One instruction unit (R171). `Executed` keeps SCHED_STATE; a stop or a fault leaves it Paused with its cause in
HALT_CAUSE, which is how the tick and `Step` tell the two apart. -/
def unit (s : State) : Result :=
  if 4096 ≤ s.pc.toNat then .next (halt .pcPastEnd s)
  else
    let t := (breakpointCheck s).2
    if (breakpointCheck s).1 then .next (halt (.breakpoint s.pc.toNat) t)
    else if t.pc.toNat = 4095 then .next (takeFault .fetchOutOfRange t)
    else match decode t.params.sysBehaviour (fetchWord t) with
      | none => .next (halt .decodeMiss t)
      | some i => exec i t

/-- A timer's decrement, floored at 0 (R29, R30, R181). -/
def countDown (b : Byte) : Byte := if b = 0 then 0 else b - 1

/-- The frame end (R181): both timers, then BEEP and `BeepStatus` on a change, then `Tick`. -/
def frameEnd (s : State) : State :=
  let t := { s with dt := countDown s.dt, st := countDown s.st }
  let on := t.st != 0
  emit .tick (if t.beep = on then t else emit (.beepStatus on) { t with beep := on })

/-- The timer fires with burst `b` (R175): a tick begins where SCHED_STATE is Running, and nothing happens
else (DEDUCED, assumption 24). -/
def tickFire (b : Nat) (s : State) : State :=
  if s.schedState = .running then { s with burst := some b } else s

/-- The core's own move (R175): inside a tick the next unit of the burst, or the frame end once the burst is used
up or halted; between ticks the timer fires with a free burst while Running (R176); else nothing happens. -/
def coreMove (s : State) : Result :=
  match s.burst with
  | some 0 => .next (frameEnd { s with burst := none })
  | some (k + 1) =>
    if s.schedState = .running then unit { s with burst := some k }
    else .next (frameEnd { s with burst := none })
  | none =>
    if s.schedState = .running then .next (tickFire (Config.burst s.draws) { s with draws := s.draws + 1 })
    else .next s

end Sys2Proof.Machine
end

