-- ==== Sys2Proof/Machine/HostCommands.lean ====
section
/-! DEFINITION. The host's commands and accessors (45_scheduler_and_host.md, sections 4 to 7). -/

namespace Sys2Proof.Machine

/-- Whether a halt was a fault, which is sticky (R213). -/
def HaltCause.isFault : HaltCause → Bool
  | .fault _ => true
  | .none | .breakpoint _ | .decodeMiss | .pcPastEnd => false

/-- `StartAsync` (R190): only from Stopped. -/
def startAsyncCommand (s : State) : State :=
  if s.schedState = .stopped then { s with schedState := .running, haltCause := .none } else s

/-- `Pause` (R191): only from Running. -/
def pauseCommand (s : State) : State :=
  if s.schedState = .running then { s with schedState := .paused } else s

/-- `Go` (R192): only from Paused without a fault. -/
def goCommand (s : State) : State :=
  if s.schedState = .paused ∧ s.haltCause.isFault = false then
    { s with schedState := .running, haltCause := .none }
  else s

/-- `StopAndReset` (R193, R240): the reset state of R44, silently. The parameters, the count of free values taken,
the moves to come and the events given are not part of the reset core (assumptions 1, 3, 5, 8). -/
def stopAndResetCommand (s : State) : State :=
  { State.resetWith s.params with draws := s.draws, moves := s.moves, out := s.out }

/-- `Cancel` where it is observed (R194, R184): `StopAndReset` from every state but Stopped. -/
def cancelCommand (s : State) : State :=
  if s.schedState = .stopped then s else stopAndResetCommand s

/-- The end of one `Step` (R185): where the unit executed, one count is used up, and a completed frame runs the
frame end and refills the counter; where it halted, nothing is consumed. -/
def stepDone (s : State) : State :=
  if s.schedState = .steppingFrame then
    if s.frameCount - 1 = 0 then
      let t := frameEnd { s with frameCount := 0 }
      { t with frameCount := t.ipf, schedState := .paused }
    else { s with frameCount := s.frameCount - 1, schedState := .paused }
  else { s with schedState := .paused }

/-- `Step` (R185, R186): one unit, only from Paused without a fault. -/
def stepCommand (s : State) : Result :=
  if s.schedState = .paused ∧ s.haltCause.isFault = false then
    match unit { s with
        schedState := .steppingFrame, haltCause := .none,
        frameCount := if s.frameCount = 0 then s.ipf else s.frameCount } with
    | .next t => .next (stepDone t)
    | .fault r => .fault r
    | .refused r => .refused r
  else .next s

/-- `Load` (R201): only in Stopped and at most 3584 bytes; memory is not cleared. -/
def loadCommand (image : Option (List Byte)) (s : State) : State :=
  match image with
  | none => emit (.loadReply false) (emit (.newMessage .loadFailed) s)
  | some bytes =>
    if s.schedState = .stopped ∧ bytes.length ≤ 3584 then
      emit (.loadReply true) (emit (.programLoaded bytes.length)
        { s with
          mem := Memory.writeWhere s.params.font (fun _ => true) 0x200 bytes s.mem
          progCount := bytes.length
          progBytes := bytes })
    else emit (.loadReply false) (emit (.newMessage .loadFailed) s)

/-- `UpdateKeyState` (R202): a key above 15 is ignored. -/
def updateKeyCommand (key : Nat) (pressed : Bool) (s : State) : State :=
  if h : key < 16 then
    if pressed then { s with keys := s.keys ||| BitVec.twoPow 16 key, lastKey := none }
    else { s with keys := s.keys &&& ~~~(BitVec.twoPow 16 key), lastKey := some ⟨key, h⟩ }
  else s

/-- `TryAddBreakpoint` (R196): an even address of the loaded program that has no entry yet. -/
def addBreakpointCommand (addr : Word) (s : State) : State :=
  let a := addr.toNat
  if a % 2 = 0 ∧ 0x200 ≤ a ∧ a < 0x200 + s.progCount ∧ BpTable.find s.bps a = none then
    emit (.addBreakpointReply true a) { s with bps := BpTable.insert a s.bps }
  else emit (.addBreakpointReply false a) s

/-- `TryRemoveBreakpoint` (R197). -/
def removeBreakpointCommand (addr : Word) (s : State) : State :=
  let a := addr.toNat
  if BpTable.find s.bps a = none then emit (.removeBreakpointReply false a) s
  else emit (.removeBreakpointReply true a) { s with bps := BpTable.erase a s.bps }

/-- The snapshot of a state (R206). -/
def snapshotOf (s : State) : Snapshot where
  mem := s.mem
  v := s.v
  stack := s.stack
  pc := s.pc
  i := s.i
  dt := s.dt
  st := s.st
  beep := s.beep
  ipf := s.ipf
  frameCount := s.frameCount
  surf := s.surf
  progBytes := s.progBytes
  progCount := s.progCount

/-- `TryStore` (R206): a reply and no other effect, the pause and the resumption cancelling (assumption 13). -/
def storeCommand (ioOk : Bool) (s : State) : State :=
  emit (.storeReply (if ioOk then some (snapshotOf s) else none)) s

/-- Overwrite the thirteen fields of a snapshot at once (R207), whatever they hold (DESIGN CHOICE, assumption 12). -/
def restoreFields (p : Snapshot) (s : State) : State :=
  { s with
    mem := p.mem, v := p.v, stack := p.stack, pc := p.pc, i := p.i, dt := p.dt, st := p.st, beep := p.beep,
    ipf := p.ipf, frameCount := p.frameCount, surf := p.surf, progBytes := p.progBytes, progCount := p.progCount }

/-- Whether `TryRestore` takes a snapshot (R207): its memory is one the machine can hold (assumption 11), its
program is the loaded one, and its IPF is not 0. -/
abbrev restorable (p : Snapshot) (s : State) : Prop :=
  Memory.wf s.params.font p.mem ∧ p.progBytes = s.progBytes ∧ p.ipf ≠ 0

/-- `TryRestore` (R207): pause first, then reject or restore; it never resumes. -/
def restoreCommand (snapshot : Option Snapshot) (s : State) : State :=
  match snapshot with
  | some p =>
    if restorable p s then emit (.restoreReply true) (restoreFields p (pauseCommand s))
    else emit (.restoreReply false) (emit (.newMessage .restoreRejected) (pauseCommand s))
  | none => emit (.restoreReply false) (emit (.newMessage .restoreRejected) (pauseCommand s))

/-- `GetOpcode` (R204): an error, with no state change, where the word's second byte does not exist. -/
def opcodeAt (a : Nat) (s : State) : Option Word :=
  if a + 1 < 4096 then some (wordOfBytes (readMem s a) (readMem s (a + 1))) else none

/-- What a command or accessor does (R190 to R207). -/
def hostCommand (c : Command) (s : State) : Result :=
  match c with
  | .startAsync => .next (startAsyncCommand s)
  | .cancel => .next (cancelCommand s)
  | .pause => .next (pauseCommand s)
  | .go => .next (goCommand s)
  | .step => stepCommand s
  | .stopAndReset => .next (stopAndResetCommand s)
  | .load bytes => .next (loadCommand bytes s)
  | .updateKeyState k p => .next (updateKeyCommand k p s)
  | .tryAddBreakpoint a => .next (addBreakpointCommand a s)
  | .tryRemoveBreakpoint a => .next (removeBreakpointCommand a s)
  | .tryStore ok => .next (storeCommand ok s)
  | .tryRestore p => .next (restoreCommand p s)
  | .getSurface => .next (emit (.surfaceView s.surf) s)
  | .getRegisters => .next (emit (.registersView s.v) s)
  | .getIRegister => .next (emit (.iRegisterView s.i) s)
  | .getProgramCounter => .next (emit (.programCounterView s.pc) s)
  | .getMemory => .next (emit (.memoryView s.mem) s)
  | .getOpcode a => .next (emit (.opcodeReply (opcodeAt a s)) s)
  | .getMnemonic w => .next (emit (.mnemonicReply (Config.mnemonicText w)) s)
  | .getSchedState => .next (emit (.schedStateView s.schedState) s)
  | .getHaltCause => .next (emit (.haltCauseView s.haltCause) s)

/-- Whether a command may fall between two units of a burst, or only between ticks (R208). -/
def Command.fitsInTick : Command → Bool
  | .updateKeyState _ _ | .tryAddBreakpoint _ | .tryRemoveBreakpoint _ | .getSurface | .getRegisters
  | .getIRegister | .getProgramCounter | .getMemory | .getOpcode _ | .getMnemonic _ | .getSchedState
  | .getHaltCause => true
  | .startAsync | .cancel | .pause | .go | .step | .stopAndReset | .load _ | .tryStore _ | .tryRestore _ => false

/-- The next move of the total order (R208). A move that cannot fall inside the tick in progress waits while the
core goes on (DEDUCED, assumption 7); an empty list leaves the core to itself (DESIGN CHOICE, assumption 5). -/
def nextMove (s : State) : Result :=
  match s.moves with
  | [] => coreMove s
  | .core :: rest => coreMove { s with moves := rest }
  | .tickFire b :: rest =>
    if s.burst.isSome then coreMove s else .next (tickFire b { s with moves := rest })
  | .host c :: rest =>
    if s.burst.isSome && !c.fitsInTick then coreMove s else hostCommand c { s with moves := rest }

end Sys2Proof.Machine
end

