-- ==== Sys2Proof/Machine/Fetch.lean ====
section
/-! DEFINITION. Placing one instruction word where the next instruction unit fetches it, and making that unit the
next step. -/

namespace Sys2Proof.Machine

/-- Where the next fetch takes its word: PC, or the entry point 0x200 where no word can be fetched at PC (R171). -/
def placeAt (s : State) : Word := if s.pc.toNat < 4095 then s.pc else 0x200

/-- A tick in progress with room for one unit: kept where there is one, else a tick of one unit. -/
def roomForUnit : Option Nat → Option Nat
  | some (k + 1) => some (k + 1)
  | some 0 | none => some 1

/-- Put `w` where the next fetch takes its word and make the next step run it: no breakpoint stands there, the
scheduler is Running inside a tick with room for a unit, and the next move is the core's (assumption 16). -/
def placeWord (w : Word) (s : State) : State :=
  let a := placeAt s
  { s with
    pc := a
    mem := Memory.writeWhere s.params.font (fun _ => true) a.toNat [hiByte w, loByte w] s.mem
    bps := BpTable.erase a.toNat s.bps
    schedState := .running
    haltCause := .none
    burst := roomForUnit s.burst
    moves := .core :: s.moves }

end Sys2Proof.Machine
end

