-- ==== Sys2Proof/Machine/Step.lean ====
section
/-! DEFINITION. One step of the machine: the next move of R208's total order. -/

namespace Sys2Proof.Machine

/-- One step: one atomic move of the core, the timer or the host (R18, R208). -/
def step (s : State) : Host.Outcome State Fault Refusal := nextMove s

/-- `s` with the opcode-table word `w` of `nbits` bits placed so that the next step fetches and runs it. -/
def State.withFetchWord (s : State) (nbits w : Nat) : State :=
  placeWord (BitVec.ofNat 16 (w % 2 ^ nbits)) s

end Sys2Proof.Machine
end

