-- ==== Sys2Proof/Safety.lean ====
section
/-! DEFINITION. What counts as a good state and a good run, and the vocabulary of the claims. -/

namespace Sys2Proof.Machine

/-! ## Invariants -/

/-- The invariant of the core: what every step keeps, whatever the host and the timer do. -/
structure CoreInv (s : State) : Prop where
  /-- Memory has its canonical form: equal memories are equal data. -/
  memCanonical : Memory.wf s.params.font s.mem
  /-- Breakpoints stand at even 16-bit addresses from 0x200 on, one entry each (R39, R196). -/
  bpsCanonical : BpTable.wf s.bps
  /-- IPF >= 1 (R36). -/
  ipfPositive : 1 ≤ s.ipf
  /-- IPF_DEFAULT >= 1 (R8). -/
  paramsLegal : s.params.wf
  /-- SteppingFrame is never seen between moves (R187). -/
  notStepping : s.schedState ≠ .steppingFrame
  /-- While Running, no halt is recorded (R184). -/
  runningUnhalted : s.schedState = .running → s.haltCause = .none
  /-- Stopped follows a reset: no halt is recorded and no tick is in progress (R228, R240). -/
  stoppedIdle : s.schedState = .stopped → s.haltCause = .none ∧ s.burst = none
  /-- A tick in progress is Running, or has just halted and owes its frame end (R175). -/
  tickOpen : s.burst ≠ none → s.schedState = .running ∨ (s.schedState = .paused ∧ s.haltCause ≠ .none)

/-- PC and return addresses stay within the bounds of R26 and R103. -/
abbrev pcBounded (pc : Word) (stack : List Word) : Prop :=
  pc.toNat ≤ 0x10FE ∧ ∀ a ∈ stack, a.toNat ≤ 0x1000

/-- The bounds hold of the state and of every snapshot the host has yet to restore. -/
structure PcInv (s : State) : Prop where
  now : pcBounded s.pc s.stack
  later : ∀ p, Move.host (.tryRestore (some p)) ∈ s.moves → pcBounded p.pc p.stack

/-! ## Runs -/

/-- A run of a program has ended (R19). -/
def ended (s : State) : Prop :=
  s.schedState = .paused ∧ (s.haltCause = .decodeMiss ∨ s.haltCause = .pcPastEnd)

/-- A run has failed (R19). -/
def failed (s : State) : Prop := ∃ code, s.haltCause = .fault code

/-- The fairness premise of R178 for ticks with free bursts: infinitely many carry at least one unit (assumption
22). -/
def FairBursts : Prop := ∀ n, ∃ m, n ≤ m ∧ 1 ≤ Config.burst m

/-! ## What a claim says is unchanged -/

/-- Every register but those listed is as before. -/
def RegsKept (written : List Reg) (s t : State) : Prop := ∀ r, r ∉ written → getV r t = getV r s

/-- Every byte of memory reads as before. -/
def MemKept (s t : State) : Prop := ∀ a, readMem t a = readMem s a

/-- Every byte of memory outside the `n` bytes from `base` reads as before. -/
def MemKeptOutside (base n : Nat) (s t : State) : Prop :=
  ∀ a, ¬(base ≤ a ∧ a < base + n) → readMem t a = readMem s a

/-- Nothing but general registers and PC differs, and of the registers only those listed; memory, named byte by
byte, is as before. -/
def OnlyRegs (written : List Reg) (s t : State) : Prop :=
  t = { s with v := t.v, pc := t.pc } ∧ RegsKept written s t ∧ MemKept s t

/-- Nothing but PC differs, and memory, named byte by byte, is as before. -/
def OnlyPc (s t : State) : Prop := t = { s with pc := t.pc } ∧ MemKept s t

/-- The word `w` decodes to `i`, whatever the parameter `SYS_BEHAVIOUR`. -/
def DecodesTo (w : Nat) (i : Instr) : Prop := ∀ sys, decode sys (BitVec.ofNat 16 w) = some i

/-! ## What a store leaves at an address -/

/-- After `LD [I], Vx` on `s` the byte at `a` is `b`: V[r] at I + r for r <= x, what stood there else (R144). -/
def BlockByte (x : Reg) (s : State) (a : Nat) (b : Byte) : Prop :=
  (∃ r : Reg, r ≤ x ∧ a = s.i.toNat + r.val ∧ b = getV r s) ∨
  (¬(s.i.toNat ≤ a ∧ a < s.i.toNat + (x.val + 1)) ∧ b = readMem s a)

/-- After `BCD Vx` on `s` the byte at `a` is `b`: a digit of V[x] at I, I + 1 and I + 2, what stood there else
(R143). -/
def BcdByte (x : Reg) (s : State) (a : Nat) (b : Byte) : Prop :=
  (a = s.i.toNat ∧ b.toNat = (getV x s).toNat / 100) ∨
  (a = s.i.toNat + 1 ∧ b.toNat = (getV x s).toNat / 10 % 10) ∨
  (a = s.i.toNat + 2 ∧ b.toNat = (getV x s).toNat % 10) ∨
  (¬(s.i.toNat ≤ a ∧ a < s.i.toNat + 3) ∧ b = readMem s a)

/-! ## What no instruction touches, and what a fault leaves -/

/-- `s` with everything no instruction reads or writes (R34: the fields of R35 to R40, PROG_COUNT and PROG_BYTES of
R41, and the model's schedule and event log) taken from `c`. -/
def withControlOf (c s : State) : State :=
  { s with
    schedState := c.schedState, ipf := c.ipf, beep := c.beep, frameCount := c.frameCount, bps := c.bps,
    haltCause := c.haltCause, progCount := c.progCount, progBytes := c.progBytes, burst := c.burst,
    moves := c.moves, out := c.out }

/-- The state a fault leaves (R213): PC and everything else as in `s`, HALT_CAUSE and SCHED_STATE set, one
`NewMessage`. -/
def FaultState (code : Fault) (s : State) : State :=
  { s with haltCause := .fault code, schedState := .paused, out := .newMessage (.fault code) :: s.out }

/-- A flag as the byte it is written as (R22). -/
def bit (b : Bool) : Byte := if b then 1 else 0

/-- What the eight flag-writing ALU operations leave (R123): result `r` and flag `f`, both committed, in the order
of `VF_ORDER` where X = F; PC + 2; nothing else. -/
def ResultAndFlag (x : Reg) (r f : Byte) (s t : State) : Prop :=
  t.pc = s.pc + 2 ∧ OnlyRegs [x, vf] s t ∧
  (x ≠ vf → getV x t = r ∧ getV vf t = f) ∧
  (x = vf → getV vf t = match s.params.vfOrder with | .flagLast => f | .resultLast => r)

/-- The word `w` decodes to `i` and, on every state, `i` answers a next state as `Post` says. -/
def Completes (w : Nat) (i : Instr) (Post : State → State → Prop) : Prop :=
  DecodesTo w i ∧ ∀ s, ∃ t, exec i s = .next t ∧ Post s t

/-! ## DRW in closed form -/

/-- DRW's start coordinate along one axis of length `m` (R151, R152): `V[r] mod m`, but for r = F after the clear,
where VF reads 0. -/
def drawOrigin (s : State) (r : Reg) (m : Nat) : Nat :=
  if s.params.drwCoord = .afterClear ∧ r = vf then 0 else (getV r s).toNat % m

/-- Whether the n-row sprite at I, its top left at (x0, y0), has a 1 bit over the point (x, y) (R62, R151). -/
def spriteCovers (s : State) (n x0 y0 x y : Nat) : Bool :=
  decide (x0 ≤ x ∧ x < x0 + 8 ∧ y0 ≤ y ∧ y < y0 + n) && (readMem s (s.i.toNat + (y - y0))).getLsbD (7 - (x - x0))

/-! ## Who writes what -/

/-- The instructions that may write VF (R22): the flag writers, and those whose register destination is VF. -/
def writesVf : Instr → Bool
  | .orReg _ _ | .andReg _ _ | .xorReg _ _ | .addReg _ _ | .subReg _ _ | .shr _ _ | .subn _ _ | .shl _ _
  | .drw _ _ _ | .addI _ => true
  | .ldImm x _ | .addImm x _ | .ldReg x _ | .rnd x _ | .ldVxDt x | .ldVxK x | .ldBlock x => x == vf
  | .sys _ | .cls | .ret | .jp _ | .call _ | .seImm _ _ | .sneImm _ _ | .seReg _ _ | .sneReg _ _ | .ldI _
  | .jpV0 _ | .skp _ | .sknp _ | .ldDtVx _ | .ldStVx _ | .ldF _ | .bcd _ | .stBlock _ => false

/-! ## Whose turn it is -/

/-- The next step is a unit of the core with `k` more to come in its burst (R175). -/
def UnitNext (k : Nat) (s : State) : Prop :=
  s.burst = some (k + 1) ∧ s.schedState = .running ∧ (s.moves = [] ∨ ∃ rest, s.moves = .core :: rest)

/-- The state that unit starts from: its place in the burst and its move used up. -/
def unitTaken (k : Nat) (s : State) : State := { s with burst := some k, moves := s.moves.tail }

/-- The next step is the host's command `c`, between ticks. -/
def HostNext (c : Command) (s : State) : Prop := s.burst = none ∧ ∃ rest, s.moves = .host c :: rest

/-- The state that command starts from: its move used up. -/
def moveTaken (s : State) : State := { s with moves := s.moves.tail }

/-- No breakpoint stands at PC (R172). -/
def NoBreakpointAtPc (s : State) : Prop := ∀ e ∈ s.bps, e.addr ≠ s.pc.toNat

/-- The word the next unit fetches (R54, R171). -/
def wordAtPc (s : State) : Word :=
  BitVec.ofNat 16 ((readMem s s.pc.toNat).toNat * 256 + (readMem s (s.pc.toNat + 1)).toNat)

/-- The state `Step` runs its unit from (R185): SteppingFrame, no halt recorded, the counter refilled where 0. -/
def stepStart (s : State) : State :=
  { s with schedState := .steppingFrame, haltCause := .none,
           frameCount := if s.frameCount = 0 then s.ipf else s.frameCount }

/-- A unit of the core that starts from `s` fetches the word `w`: it runs what `w` decodes to, and halts with
DecodeMiss where that is nothing (R171). -/
def UnitRuns (w : Word) (s : State) : Prop :=
  fetchWord s = w ∧ ∀ k, UnitNext k s → NoBreakpointAtPc s →
    (∀ i, decode s.params.sysBehaviour w = some i → step s = exec i (unitTaken k s)) ∧
    (decode s.params.sysBehaviour w = none →
      step s = .next { unitTaken k s with haltCause := .decodeMiss, schedState := .paused })

/-- `t` is left by a unit that started from `s` at the address of an entry with `hits` hits, `active` or not: a visit
(R195, R198). `isActive` of that entry is toggled, its count goes up where it was inactive, every other entry is as
before, and the visit halts on the breakpoint exactly where the entry was inactive. -/
structure VisitToggles (hits : Nat) (active : Bool) (s t : State) : Prop where
  toggled : ⟨s.pc.toNat, if active then hits else hits + 1, !active⟩ ∈ t.bps
  othersKept : ∀ e : BpEntry, e.addr ≠ s.pc.toNat → (e ∈ t.bps ↔ e ∈ s.bps)
  oneEntry : BpTable.wf t.bps
  haltsWhereInactive : t.haltCause = .breakpoint s.pc.toNat ↔ active = false

/-- `s` halted by the breakpoint at PC before its unit fetched (R172, R198), its table now `bps`. -/
def breakpointHalt (bps : BpTable) (s : State) : State :=
  { s with bps := bps, haltCause := .breakpoint s.pc.toNat, schedState := .paused,
           out := .breakpointHit s.pc.toNat :: s.out }

end Sys2Proof.Machine
end

