-- ==== Sys2Proof/Certificates/Slice0/Obligations.lean ====
section
/-! DEFINITION. The statements for the provers, from the numbered rules of spec/. -/

open Sys2Proof Sys2Proof.Machine

/-! ## Encoding and decode (30_encoding.md) -/

/-- Words written out from the patterns of R88, one of each format and family. -/
def Obligations.SampleWordsDecode : Prop :=
  (∀ sys, decode sys 0x00E0 = some .cls ∧ decode sys 0x00EE = some .ret ∧ decode sys 0x1ABC = some (.jp 0xABC) ∧
    decode sys 0x3A5C = some (.seImm 0xA 0x5C) ∧ decode sys 0x8124 = some (.addReg 1 2) ∧
    decode sys 0x9EF0 = some (.sneReg 0xE 0xF) ∧ decode sys 0xD789 = some (.drw 7 8 9) ∧
    decode sys 0xE4A1 = some (.sknp 4) ∧ decode sys 0xF733 = some (.bcd 7) ∧ decode sys 0xFFFF = none) ∧
  decode .nop 0x0123 = some (.sys 0x123) ∧ decode .decodeMiss 0x0123 = none

/-- Decoding an encoded well-formed instruction gives it back, every operand at every value (R83, R84, R88). -/
def Obligations.DecodeOfEncode : Prop :=
  ∀ i, i.wellFormed = true → decode .nop (encode i) = some i

/-- A word that decodes is the encoding of what it decodes to, which is well-formed (R82, R93). -/
def Obligations.EncodeOfDecode : Prop :=
  ∀ sys w i, decode sys w = some i → encode i = w ∧ i.wellFormed = true

/-- A word decodes to an instruction of a row exactly where `(w & mask) == match` holds of that row, CLS and RET
before SYS: the selection R83 speaks of, not the operands and the execution (R81, R83 in part, R84, R88). -/
def Obligations.DecodeSelectsMatchingRow : Prop :=
  ∀ (w : Word) (i : Instr),
    (decode .nop w = some i → w &&& (rowPattern i).2 = (rowPattern i).1) ∧
    (w &&& (rowPattern i).2 = (rowPattern i).1 → (∀ nnn, i = .sys nnn → w ≠ 0x00E0 ∧ w ≠ 0x00EE) →
      ∃ j, decode .nop w = some j ∧ rowPattern j = rowPattern i)

/-- The decode misses are exactly the words R90 lists. -/
def Obligations.DecodeMissesAreListed : Prop :=
  ∀ sys (w : Word), decode sys w = none ↔
    let op := w.toNat / 4096
    let n := w.toNat % 16
    let nn := w.toNat % 256
    (op = 5 ∧ n ≠ 0) ∨ (op = 8 ∧ n ∈ [0x8, 0x9, 0xA, 0xB, 0xC, 0xD, 0xF]) ∨ (op = 9 ∧ n ≠ 0) ∨
    (op = 0xE ∧ nn ∉ [0x9E, 0xA1]) ∨
    (op = 0xF ∧ nn ∉ [0x07, 0x0A, 0x15, 0x18, 0x1E, 0x29, 0x33, 0x55, 0x65]) ∨
    (sys = .decodeMiss ∧ op = 0 ∧ w ≠ 0x00E0 ∧ w ≠ 0x00EE)

/-! ## Control flow (40_control_flow.md) -/

/-- SYS only advances PC; its words are SYS under `Nop` and decode misses under `DecodeMiss` (R100). -/
def Obligations.SysOnlyAdvances : Prop :=
  ∀ nnn : Addr12, nnn ≠ 0x0E0 → nnn ≠ 0x0EE →
    decode .nop (BitVec.ofNat 16 nnn.toNat) = some (.sys nnn) ∧
    decode .decodeMiss (BitVec.ofNat 16 nnn.toNat) = none ∧
    ∀ s, ∃ t, exec (.sys nnn) s = .next t ∧ t.pc = s.pc + 2 ∧ OnlyPc s t

/-- RET pops the stack into PC; on an empty stack it takes StackUnderflow and PC and the stack stay (R101). -/
def Obligations.RetPopsIntoPc : Prop :=
  DecodesTo 0x00EE .ret ∧
  (∀ s a rest, s.stack = a :: rest →
    ∃ t, exec .ret s = .next t ∧ t.pc = a ∧ t.stack = rest ∧ t = { s with pc := t.pc, stack := t.stack } ∧
      MemKept s t) ∧
  (∀ s, s.stack = [] → exec .ret s = .next (FaultState .stackUnderflow s))

/-- JP sets PC to NNN and changes nothing else (R102). -/
def Obligations.JpSetsPc : Prop :=
  ∀ nnn : Addr12, Completes (0x1000 + nnn.toNat) (.jp nnn) fun s t => t.pc.toNat = nnn.toNat ∧ OnlyPc s t

/-- CALL pushes PC + 2, without wrap where it can be fetched, and sets PC to NNN (R103). -/
def Obligations.CallPushesReturnAddress : Prop :=
  ∀ nnn : Addr12, Completes (0x2000 + nnn.toNat) (.call nnn) fun s t =>
    t.pc.toNat = nnn.toNat ∧ t.stack = (s.pc + 2) :: s.stack ∧
    (s.pc.toNat ≤ 0xFFE → (s.pc + 2).toNat = s.pc.toNat + 2) ∧
    t = { s with pc := t.pc, stack := t.stack } ∧ MemKept s t

/-- SE and SNE with an immediate: PC + 4 on a skip, PC + 2 else, and nothing else (R104, R105). -/
def Obligations.ImmediateSkips : Prop :=
  ∀ (x : Reg) (nn : Byte),
    (Completes (0x3000 + x.val * 256 + nn.toNat) (.seImm x nn) fun s t =>
      t.pc = (if getV x s = nn then s.pc + 4 else s.pc + 2) ∧ OnlyPc s t) ∧
    (Completes (0x4000 + x.val * 256 + nn.toNat) (.sneImm x nn) fun s t =>
      t.pc = (if getV x s ≠ nn then s.pc + 4 else s.pc + 2) ∧ OnlyPc s t)

/-- SE and SNE of two registers; their words with a low nibble other than 0 are decode misses (R106, R107). -/
def Obligations.RegisterSkips : Prop :=
  ∀ x y : Reg,
    (Completes (0x5000 + x.val * 256 + y.val * 16) (.seReg x y) fun s t =>
      t.pc = (if getV x s = getV y s then s.pc + 4 else s.pc + 2) ∧ OnlyPc s t) ∧
    (Completes (0x9000 + x.val * 256 + y.val * 16) (.sneReg x y) fun s t =>
      t.pc = (if getV x s ≠ getV y s then s.pc + 4 else s.pc + 2) ∧ OnlyPc s t) ∧
    (∀ n : Reg, n ≠ 0 → ∀ sys,
      decode sys (BitVec.ofNat 16 (0x5000 + x.val * 256 + y.val * 16 + n.val)) = none ∧
      decode sys (BitVec.ofNat 16 (0x9000 + x.val * 256 + y.val * 16 + n.val)) = none)

/-- JP V0 sets PC to NNN + V0, computed without wrap; VF is not written (R108). -/
def Obligations.JpV0AddsV0 : Prop :=
  ∀ nnn : Addr12, Completes (0xB000 + nnn.toNat) (.jpV0 nnn) fun s t =>
    t.pc.toNat = nnn.toNat + (getV 0 s).toNat ∧ OnlyPc s t

/-! ## Arithmetic (41_alu.md) -/

/-- LD Vx, byte, ADD Vx, byte and LD Vx, Vy: the result modulo 256, no flag (R120, R121, R122). -/
def Obligations.LoadsAndImmediateAdd : Prop :=
  ∀ (x y : Reg) (nn : Byte),
    (Completes (0x8000 + x.val * 256 + y.val * 16) (.ldReg x y) fun s t =>
      getV x t = getV y s ∧ t.pc = s.pc + 2 ∧ OnlyRegs [x] s t) ∧
    (Completes (0x6000 + x.val * 256 + nn.toNat) (.ldImm x nn) fun s t =>
      getV x t = nn ∧ t.pc = s.pc + 2 ∧ OnlyRegs [x] s t) ∧
    (Completes (0x7000 + x.val * 256 + nn.toNat) (.addImm x nn) fun s t =>
      (getV x t).toNat = ((getV x s).toNat + nn.toNat) % 256 ∧ t.pc = s.pc + 2 ∧ OnlyRegs [x] s t)

/-- OR, AND and XOR combine Vx and Vy and zero VF, with X = F by `VF_ORDER` (R124, R125, R126). -/
def Obligations.BitwiseOpsClearVf : Prop :=
  ∀ x y : Reg,
    (Completes (0x8001 + x.val * 256 + y.val * 16) (.orReg x y) fun s t =>
      ResultAndFlag x (getV x s ||| getV y s) 0 s t) ∧
    (Completes (0x8002 + x.val * 256 + y.val * 16) (.andReg x y) fun s t =>
      ResultAndFlag x (getV x s &&& getV y s) 0 s t) ∧
    (Completes (0x8003 + x.val * 256 + y.val * 16) (.xorReg x y) fun s t =>
      ResultAndFlag x (getV x s ^^^ getV y s) 0 s t)

/-- ADD Vx, Vy: the sum modulo 256, VF = 1 exactly where the unsigned sum exceeds 255 (R127). -/
def Obligations.AddSetsCarry : Prop :=
  ∀ x y : Reg, Completes (0x8004 + x.val * 256 + y.val * 16) (.addReg x y) fun s t =>
    ResultAndFlag x (BitVec.ofNat 8 ((getV x s).toNat + (getV y s).toNat))
      (bit (255 < (getV x s).toNat + (getV y s).toNat)) s t

/-- SUB and SUBN: the difference modulo 256, VF by the strict comparison (R128, R130). -/
def Obligations.SubtractionsSetStrictFlag : Prop :=
  ∀ x y : Reg,
    (Completes (0x8005 + x.val * 256 + y.val * 16) (.subReg x y) fun s t =>
      ResultAndFlag x (BitVec.ofNat 8 ((getV x s).toNat + 256 - (getV y s).toNat))
        (bit ((getV y s).toNat < (getV x s).toNat)) s t) ∧
    (Completes (0x8007 + x.val * 256 + y.val * 16) (.subn x y) fun s t =>
      ResultAndFlag x (BitVec.ofNat 8 ((getV y s).toNat + 256 - (getV x s).toNat))
        (bit ((getV x s).toNat < (getV y s).toNat)) s t)

/-- SHR and SHL shift V[Y] by one bit into V[X]; VF is the bit shifted out (R129, R131). -/
def Obligations.ShiftsOfVy : Prop :=
  ∀ x y : Reg,
    (Completes (0x8006 + x.val * 256 + y.val * 16) (.shr x y) fun s t =>
      ResultAndFlag x (BitVec.ofNat 8 ((getV y s).toNat / 2)) (BitVec.ofNat 8 ((getV y s).toNat % 2)) s t) ∧
    (Completes (0x800E + x.val * 256 + y.val * 16) (.shl x y) fun s t =>
      ResultAndFlag x (BitVec.ofNat 8 ((getV y s).toNat * 2)) (BitVec.ofNat 8 ((getV y s).toNat / 128)) s t)

/-- RND: a free byte masked by the immediate, one free value used up, nothing else but PC (R132). The free byte is
`Config.drawByte`, of which nothing is known (assumption 3). -/
def Obligations.RndMasksFreeByte : Prop :=
  ∀ (x : Reg) (nn : Byte), Completes (0xC000 + x.val * 256 + nn.toNat) (.rnd x nn) fun s t =>
    getV x t = Config.drawByte s.draws &&& nn ∧ (nn = 0 → getV x t = 0) ∧ t.pc = s.pc + 2 ∧
    t = { s with v := t.v, pc := t.pc, draws := s.draws + 1 } ∧ RegsKept [x] s t ∧ MemKept s t

/-! ## Index and memory (42_index_memory.md) -/

/-- LD I, addr and LD F, Vx set I to NNN and to V[X] * 5, the whole byte used (R140, R142). -/
def Obligations.IndexLoads : Prop :=
  (∀ nnn : Addr12, Completes (0xA000 + nnn.toNat) (.ldI nnn) fun s t =>
    t.i.toNat = nnn.toNat ∧ t = { s with i := t.i, pc := s.pc + 2 } ∧ MemKept s t) ∧
  (∀ x : Reg, Completes (0xF029 + x.val * 256) (.ldF x) fun s t =>
    t.i.toNat = (getV x s).toNat * 5 ∧ t = { s with i := t.i, pc := s.pc + 2 } ∧ MemKept s t)

/-- ADD I, Vx: the sum modulo 65536; VF = 1 where bits 15:12 of the new I are not all zero, else kept or 0 by
`ADDI_VF_ELSE` (R141). -/
def Obligations.AddToIndex : Prop :=
  ∀ x : Reg, Completes (0xF01E + x.val * 256) (.addI x) fun s t =>
    t.i.toNat = (s.i.toNat + (getV x s).toNat) % 65536 ∧
    (t.i.toNat / 4096 ≠ 0 → getV vf t = 1) ∧
    (t.i.toNat / 4096 = 0 → getV vf t = match s.params.addIVfElse with | .keep => getV vf s | .zero => 0) ∧
    t = { s with v := t.v, i := t.i, pc := s.pc + 2 } ∧ RegsKept [vf] s t ∧ MemKept s t

/-- BCD stores the hundreds, tens and ones of V[X] at I, I + 1, I + 2, and I stays. Where one of the three addresses
is out of range it takes MemoryOutOfRange: PC and every register stay, and every byte but those before the failing one
stays (R143). R143 and R58 leave the bytes before it unspecified: that each is its old or its new value is the DESIGN
CHOICE of assumption 9 (U1). -/
def Obligations.BcdStoresDigits : Prop :=
  ∀ x : Reg, DecodesTo (0xF033 + x.val * 256) (.bcd x) ∧
    (∀ s, Memory.wf s.params.font s.mem → s.i.toNat + 2 < 4096 →
      ∃ t, exec (.bcd x) s = .next t ∧
        (readMem t s.i.toNat).toNat = (getV x s).toNat / 100 ∧
        (readMem t (s.i.toNat + 1)).toNat = (getV x s).toNat / 10 % 10 ∧
        (readMem t (s.i.toNat + 2)).toNat = (getV x s).toNat % 10 ∧
        MemKeptOutside s.i.toNat 3 s t ∧ t = { s with mem := t.mem, pc := s.pc + 2 }) ∧
    (∀ s, Memory.wf s.params.font s.mem → 4096 ≤ s.i.toNat + 2 →
      ∃ t, exec (.bcd x) s = .next t ∧
        t = { FaultState .memoryOutOfRange s with mem := t.mem, draws := s.draws + 1 } ∧
        MemKeptOutside s.i.toNat 3 s t ∧
        (readMem t s.i.toNat = readMem s s.i.toNat ∨ (readMem t s.i.toNat).toNat = (getV x s).toNat / 100) ∧
        (readMem t (s.i.toNat + 1) = readMem s (s.i.toNat + 1) ∨
          (readMem t (s.i.toNat + 1)).toNat = (getV x s).toNat / 10 % 10) ∧
        (∀ a, 4096 ≤ a → readMem t a = readMem s a))

/-- LD [I], Vx stores V0 to VX from I on, and I becomes I + X + 1. Where an address is out of range it takes
MemoryOutOfRange: PC, I and every register stay, and every byte but those before the failing one stays (R144). R144
and R58 leave the bytes before it unspecified: that each is its old or its new value is the DESIGN CHOICE of
assumption 9 (U1). -/
def Obligations.BlockStore : Prop :=
  ∀ x : Reg, DecodesTo (0xF055 + x.val * 256) (.stBlock x) ∧
    (∀ s, Memory.wf s.params.font s.mem → s.i.toNat + x.val < 4096 →
      ∃ t, exec (.stBlock x) s = .next t ∧
        (∀ r : Reg, r ≤ x → readMem t (s.i.toNat + r.val) = getV r s) ∧
        MemKeptOutside s.i.toNat (x.val + 1) s t ∧ t.i.toNat = s.i.toNat + x.val + 1 ∧
        t = { s with mem := t.mem, i := t.i, pc := s.pc + 2 }) ∧
    (∀ s, Memory.wf s.params.font s.mem → 4096 ≤ s.i.toNat + x.val →
      ∃ t, exec (.stBlock x) s = .next t ∧
        t = { FaultState .memoryOutOfRange s with mem := t.mem, draws := s.draws + 1 } ∧
        MemKeptOutside s.i.toNat (x.val + 1) s t ∧
        (∀ r : Reg, r ≤ x → readMem t (s.i.toNat + r.val) = readMem s (s.i.toNat + r.val) ∨
          readMem t (s.i.toNat + r.val) = getV r s) ∧
        (∀ a, 4096 ≤ a → readMem t a = readMem s a))

/-- LD Vx, [I] loads V0 to VX from I on, and I becomes I + X + 1. Where an address is out of range it takes
MemoryOutOfRange: PC, I and memory stay, and every register but those before the failing address stays (R145). R145
leaves the registers before it unspecified: that each is its old or its loaded value is the DESIGN CHOICE of
assumption 9 (U1). -/
def Obligations.BlockLoad : Prop :=
  ∀ x : Reg, DecodesTo (0xF065 + x.val * 256) (.ldBlock x) ∧
    (∀ s, s.i.toNat + x.val < 4096 →
      ∃ t, exec (.ldBlock x) s = .next t ∧
        (∀ r : Reg, r ≤ x → getV r t = readMem s (s.i.toNat + r.val)) ∧
        (∀ r : Reg, x < r → getV r t = getV r s) ∧ t.i.toNat = s.i.toNat + x.val + 1 ∧
        t = { s with v := t.v, i := t.i, pc := s.pc + 2 } ∧ MemKept s t) ∧
    (∀ s, 4096 ≤ s.i.toNat + x.val →
      ∃ t, exec (.ldBlock x) s = .next t ∧
        t = { FaultState .memoryOutOfRange s with v := t.v, draws := s.draws + 1 } ∧ MemKept s t ∧
        (∀ r : Reg, getV r t = getV r s ∨
          (r ≤ x ∧ s.i.toNat + r.val < 4096 ∧ getV r t = readMem s (s.i.toNat + r.val))))

/-- Fetch sees what a store wrote, at every address the store's bytes or their neighbours are part of: after LD [I], Vx
and after BCD Vx, a unit at any address fetches the big-endian word of the bytes that now stand there and runs what it
decodes to. At `a = t.pc` that is the very next unit (R54, R55, R68). -/
def Obligations.StoredBytesAreFetched : Prop :=
  (∀ (x : Reg) s, Memory.wf s.params.font s.mem → s.i.toNat + x.val < 4096 →
    ∃ t, exec (.stBlock x) s = .next t ∧
      ∀ (a : Word) (hi lo : Byte), a.toNat < 4095 → BlockByte x s a.toNat hi → BlockByte x s (a.toNat + 1) lo →
        UnitRuns (BitVec.ofNat 16 (hi.toNat * 256 + lo.toNat)) { t with pc := a }) ∧
  (∀ (x : Reg) s, Memory.wf s.params.font s.mem → s.i.toNat + 2 < 4096 →
    ∃ t, exec (.bcd x) s = .next t ∧
      ∀ (a : Word) (hi lo : Byte), a.toNat < 4095 → BcdByte x s a.toNat hi → BcdByte x s (a.toNat + 1) lo →
        UnitRuns (BitVec.ofNat 16 (hi.toNat * 256 + lo.toNat)) { t with pc := a })

/-! ## Display (43_display.md) -/

/-- CLS makes every pixel false and changes nothing else but PC (R150). -/
def Obligations.ClsBlanksSurface : Prop :=
  Completes 0x00E0 .cls fun s t =>
    (∀ x y, x < 64 → y < 32 → getPixel t.surf x y = false) ∧
    t = { s with surf := t.surf, pc := s.pc + 2 } ∧ MemKept s t

/-- DRW toggles exactly the pixels its sprite covers inside the grid, and VF is 1 exactly where one of them was set
before. Where a sprite byte is out of range, whatever clipping would discard, it takes MemoryOutOfRange: the surface,
PC and every register but VF stay (R151, R152). R151 leaves VF unspecified then: that it is its old value or 0 is the
DESIGN CHOICE of assumption 9 (U1). -/
def Obligations.DrwTogglesCoveredPixels : Prop :=
  ∀ x y n : Reg, DecodesTo (0xD000 + x.val * 256 + y.val * 16 + n.val) (.drw x y n) ∧
    (∀ s, n.val = 0 ∨ s.i.toNat + n.val ≤ 4096 →
      ∃ t, exec (.drw x y n) s = .next t ∧
        (let covers := spriteCovers s n.val (drawOrigin s x 64) (drawOrigin s y 32)
         (∀ px py, px < 64 → py < 32 → getPixel t.surf px py = (getPixel s.surf px py ^^ covers px py)) ∧
         ((∃ px py, px < 64 ∧ py < 32 ∧ covers px py = true ∧ getPixel s.surf px py = true) → getV vf t = 1) ∧
         (¬(∃ px py, px < 64 ∧ py < 32 ∧ covers px py = true ∧ getPixel s.surf px py = true) → getV vf t = 0)) ∧
        t = { s with v := t.v, surf := t.surf, pc := s.pc + 2 } ∧ RegsKept [vf] s t ∧ MemKept s t) ∧
    (∀ s, n.val ≠ 0 → 4096 ≤ s.i.toNat + n.val - 1 →
      ∃ t, exec (.drw x y n) s = .next t ∧
        t = { FaultState .memoryOutOfRange s with v := t.v, draws := s.draws + 1 } ∧ RegsKept [vf] s t ∧
        (getV vf t = getV vf s ∨ getV vf t = 0) ∧ MemKept s t)

/-! ## Keys and timers (44_keys_timers.md) -/

/-- SKP and SKNP skip by bit V[X] of KEYS; a key number above 15 takes KeyIndexOutOfRange (R160, R161, R162). -/
def Obligations.KeySkips : Prop :=
  ∀ x : Reg, DecodesTo (0xE09E + x.val * 256) (.skp x) ∧ DecodesTo (0xE0A1 + x.val * 256) (.sknp x) ∧
    (∀ s, (getV x s).toNat ≤ 15 →
      (∃ t, exec (.skp x) s = .next t ∧ OnlyPc s t ∧
        t.pc = if s.keys.getLsbD (getV x s).toNat then s.pc + 4 else s.pc + 2) ∧
      (∃ t, exec (.sknp x) s = .next t ∧ OnlyPc s t ∧
        t.pc = if s.keys.getLsbD (getV x s).toNat then s.pc + 2 else s.pc + 4)) ∧
    (∀ s, 15 < (getV x s).toNat →
      exec (.skp x) s = .next (FaultState .keyIndexOutOfRange s) ∧
      exec (.sknp x) s = .next (FaultState .keyIndexOutOfRange s))

/-- LD Vx,DT, LD DT,Vx and LD ST,Vx copy between timer and register; BEEP stays (R163, R165, R166). -/
def Obligations.TimerCopies : Prop :=
  ∀ x : Reg,
    (Completes (0xF007 + x.val * 256) (.ldVxDt x) fun s t =>
      getV x t = s.dt ∧ t.pc = s.pc + 2 ∧ OnlyRegs [x] s t) ∧
    (Completes (0xF015 + x.val * 256) (.ldDtVx x) fun s t =>
      t = { s with dt := getV x s, pc := s.pc + 2 } ∧ MemKept s t) ∧
    (Completes (0xF018 + x.val * 256) (.ldStVx x) fun s t =>
      t = { s with st := getV x s, pc := s.pc + 2 } ∧ MemKept s t)

/-- LD Vx,K stores and consumes the released key, and changes nothing at all while there is none (R164). -/
def Obligations.KeyWait : Prop :=
  ∀ x : Reg, DecodesTo (0xF00A + x.val * 256) (.ldVxK x) ∧
    (∀ s, s.lastKey = none → exec (.ldVxK x) s = .next s) ∧
    (∀ s (k : Reg), s.lastKey = some k →
      ∃ t, exec (.ldVxK x) s = .next t ∧ (getV x t).toNat = k.val ∧ RegsKept [x] s t ∧ MemKept s t ∧
        t = { s with v := t.v, lastKey := none, pc := s.pc + 2 })

/-! ## Rules over all instructions -/

/-- No instruction writes KEYS; LASTKEY, STACK, DT, ST, SURF, I and MEM are written only by the instructions their
rules name (R23, R27, R29 to R33, R51). -/
def Obligations.OnlyNamedWriters : Prop :=
  ∀ i s t, exec i s = .next t →
    t.keys = s.keys ∧
    (t.lastKey ≠ s.lastKey → ∃ x, i = .ldVxK x) ∧
    (t.stack ≠ s.stack → (∃ nnn, i = .call nnn) ∨ i = .ret) ∧
    (t.dt ≠ s.dt → ∃ x, i = .ldDtVx x) ∧
    (t.st ≠ s.st → ∃ x, i = .ldStVx x) ∧
    (t.surf ≠ s.surf → i = .cls ∨ ∃ x y n, i = .drw x y n) ∧
    (t.i ≠ s.i → (∃ nnn, i = .ldI nnn) ∨ ∃ x, i = .addI x ∨ i = .ldF x ∨ i = .stBlock x ∨ i = .ldBlock x) ∧
    (t.mem ≠ s.mem → ∃ x, i = .bcd x ∨ i = .stBlock x)

/-- An instruction that R22 does not list as a writer of VF, and whose destination is not VF, leaves VF alone. -/
def Obligations.VfWritersAreListed : Prop :=
  ∀ i s t, writesVf i = false → exec i s = .next t → getV vf t = getV vf s

/-- No instruction reads the scheduler's state, BEEP, the breakpoints, HALT_CAUSE, the program record or the
schedule: what it does to everything else is the same whatever they hold (R34, R227). -/
def Obligations.ProgramCannotSeeControlState : Prop :=
  ∀ i s c, ∃ t t', exec i s = .next t ∧ exec i (withControlOf c s) = .next t' ∧
    withControlOf c t = withControlOf c t'

/-- No instruction writes the scheduler's counters, BEEP, the breakpoints, the program record, the parameters or the
schedule; SCHED_STATE, HALT_CAUSE and the event log change only by a fault, which keeps PC and leaves the scheduler
Paused with its code and one NewMessage (R34, R213). -/
def Obligations.ExecutesOrTakesAFault : Prop :=
  ∀ i s, ∃ t, exec i s = .next t ∧
    t.ipf = s.ipf ∧ t.beep = s.beep ∧ t.frameCount = s.frameCount ∧ t.bps = s.bps ∧ t.progCount = s.progCount ∧
    t.progBytes = s.progBytes ∧ t.params = s.params ∧ t.burst = s.burst ∧ t.moves = s.moves ∧
    ((t.schedState = s.schedState ∧ t.haltCause = s.haltCause ∧ t.out = s.out) ∨
     (∃ code, t.schedState = .paused ∧ t.haltCause = .fault code ∧ t.out = .newMessage (.fault code) :: s.out ∧
       t.pc = s.pc))

/-! ## The instruction unit and the breakpoints (45, sections 2 and 6) -/

/-- A step of the core inside a tick runs the instruction that the bytes at PC decode to, on the state whose burst
has one unit less; an active breakpoint at PC is made inactive first (R171, R172). -/
def Obligations.StepRunsDecodedInstruction : Prop :=
  (∀ s k i, UnitNext k s → s.pc.toNat < 4095 → NoBreakpointAtPc s →
    decode s.params.sysBehaviour (wordAtPc s) = some i → step s = exec i (unitTaken k s)) ∧
  (∀ s k i hits, UnitNext k s → s.pc.toNat < 4095 → BpTable.wf s.bps → ⟨s.pc.toNat, hits, true⟩ ∈ s.bps →
    decode s.params.sysBehaviour (wordAtPc s) = some i →
    step s = exec i { unitTaken k s with bps := BpTable.put s.pc.toNat hits false s.bps })

/-- The halts of a unit that passes the breakpoint check. PC at or past 4096 stops silently with PcPastEnd, before
that check; PC = 4095 takes FetchOutOfRange; a word that matches no entry stops silently with DecodeMiss, whether
there is no entry at PC or an active one, which is then inactive again. PC and everything architectural stay (R90,
R171, R173, R174, R216). -/
def Obligations.UnitHaltsWithoutExecuting : Prop :=
  (∀ s k, UnitNext k s → 4096 ≤ s.pc.toNat →
    step s = .next { unitTaken k s with haltCause := .pcPastEnd, schedState := .paused }) ∧
  (∀ s k, UnitNext k s → s.pc.toNat = 4095 → NoBreakpointAtPc s →
    step s = .next (FaultState .fetchOutOfRange (unitTaken k s))) ∧
  (∀ s k, UnitNext k s → s.pc.toNat < 4095 → NoBreakpointAtPc s →
    decode s.params.sysBehaviour (wordAtPc s) = none →
    step s = .next { unitTaken k s with haltCause := .decodeMiss, schedState := .paused }) ∧
  (∀ s k hits, UnitNext k s → s.pc.toNat < 4095 → BpTable.wf s.bps → ⟨s.pc.toNat, hits, true⟩ ∈ s.bps →
    decode s.params.sysBehaviour (wordAtPc s) = none →
    step s = .next { unitTaken k s with
      bps := BpTable.put s.pc.toNat hits false s.bps, haltCause := .decodeMiss, schedState := .paused })

/-- Every unit that starts at a breakpoint's address below 4096 is a visit, be it a unit of a tick or the one a Step
runs: it toggles isActive of its entry and of no other. An inactive entry halts before fetch and decode: the count
goes up by one, one BreakpointHit is emitted and nothing else changes, but for what the tick or the Step has set
before its unit. An active one does not halt there (R172, R173, R195, R198, R199, R216). -/
def Obligations.BreakpointTogglesOnEveryVisit : Prop :=
  ∀ s hits active, s.pc.toNat < 4096 → BpTable.wf s.bps → ⟨s.pc.toNat, hits, active⟩ ∈ s.bps →
    (∀ k, UnitNext k s → s.haltCause = .none →
      ∃ t, step s = .next t ∧ VisitToggles hits active s t ∧
        (active = false → t = breakpointHalt t.bps (unitTaken k s))) ∧
    (HostNext .step s → s.schedState = .paused → (∀ code, s.haltCause ≠ .fault code) →
      ∃ t, step s = .next t ∧ VisitToggles hits active s t ∧
        (active = false → t = breakpointHalt t.bps (stepStart (moveTaken s))))

/-! ## The scheduler (45, sections 3 and 4) -/

/-- The frame end: both timers down by one and floored at 0, BEEP equal to ST > 0 after that, BeepStatus on a change
and then Tick, and nothing else (R181). The core makes it when the burst is used up, and when a unit has halted. -/
def Obligations.FrameEndDecrementsTimers : Prop :=
  (∀ s, let t := frameEnd s
    t.dt.toNat = s.dt.toNat - 1 ∧ t.st.toNat = s.st.toNat - 1 ∧ t.beep = decide (0 < t.st.toNat) ∧
    t.out = .tick :: (if t.beep = s.beep then s.out else .beepStatus t.beep :: s.out) ∧
    t = { s with dt := t.dt, st := t.st, beep := t.beep, out := t.out }) ∧
  (∀ s k, s.burst = some k → (s.moves = [] ∨ ∃ rest, s.moves = .core :: rest) →
    (k = 0 ∨ s.schedState ≠ .running) →
    step s = .next (frameEnd { s with burst := none, moves := s.moves.tail }))

/-- Between ticks, the timer fires with any burst while Running, and is without effect in any other state; and the core
by itself begins a tick of a free burst while Running, which uses up one free value, and does nothing in any other
state: no instruction executes there (R35, R170, R175, R176, R177, R244). The model's form: the timer's move with its
burst as an input and the core's own move are assumptions 4 and 5; that a timer move outside Running is dropped is
DEDUCED, assumption 24. -/
def Obligations.TickFiresWhileRunning : Prop :=
  (∀ s b rest, s.burst = none → s.moves = .tickFire b :: rest →
    (s.schedState = .running → step s = .next { s with moves := rest, burst := some b }) ∧
    (s.schedState ≠ .running → step s = .next { s with moves := rest })) ∧
  (∀ s, s.burst = none → (s.moves = [] ∨ ∃ rest, s.moves = .core :: rest) →
    (s.schedState = .running → step s = .next { s with
      moves := s.moves.tail, burst := some (Config.burst s.draws), draws := s.draws + 1 }) ∧
    (s.schedState ≠ .running → step s = .next { s with moves := s.moves.tail }))

/-- A tick whose burst is b ends after at most b + 1 steps of the core, and emits exactly one Tick (R175, R180). That a
tick is cut into its units is the model's form, assumption 6. -/
def Obligations.OneTickPerTickFire : Prop :=
  ∀ b s, s.moves = [] → s.burst = some b →
    ∃ n t, 1 ≤ n ∧ n ≤ b + 1 ∧ Sys2Proof.core.run n s = .next t ∧ t.burst = none ∧
      t.out.count .tick = s.out.count .tick + 1

/-- Step in Paused without a fault runs one unit from SteppingFrame, the counter refilled where 0; an active breakpoint
at PC is made inactive and the instruction there runs. Where the unit executes, one count is used up, and the frame
end and the refill follow at 0; where it halts, nothing is consumed and no frame end runs. It ends in Paused (R185). -/
def Obligations.StepRunsOneUnit : Prop :=
  ∀ s, HostNext .step s → s.schedState = .paused → (∀ code, s.haltCause ≠ .fault code) → 1 ≤ s.ipf →
    ∃ t, unit (stepStart (moveTaken s)) = .next t ∧ t.frameCount = (stepStart s).frameCount ∧
      (∀ i, s.pc.toNat < 4095 → NoBreakpointAtPc s → decode s.params.sysBehaviour (wordAtPc s) = some i →
        exec i (stepStart (moveTaken s)) = .next t) ∧
      (∀ i hits, s.pc.toNat < 4095 → BpTable.wf s.bps → ⟨s.pc.toNat, hits, true⟩ ∈ s.bps →
        decode s.params.sysBehaviour (wordAtPc s) = some i →
        exec i { stepStart (moveTaken s) with bps := BpTable.put s.pc.toNat hits false s.bps } = .next t) ∧
      ((t.schedState = .steppingFrame ∧ t.haltCause = .none) ∨ (t.schedState = .paused ∧ t.haltCause ≠ .none)) ∧
      (t.schedState = .steppingFrame → t.frameCount ≠ 1 →
        step s = .next { t with frameCount := t.frameCount - 1, schedState := .paused }) ∧
      (t.schedState = .steppingFrame → t.frameCount = 1 →
        step s = .next { frameEnd t with frameCount := s.ipf, schedState := .paused }) ∧
      (t.schedState = .paused → step s = .next t)

/-- Step in any state but Paused, and in Paused after a fault, is ignored: no state changes and no event (R186). From
Paused without a fault, a unit that stops past the end of memory or on a decode miss, or faults on its fetch, halts it
again: an active entry at PC is inactive after a decode miss, and nothing else changes (R171, R185, R216). -/
def Obligations.StepWithoutExecution : Prop :=
  (∀ s, HostNext .step s → (s.schedState ≠ .paused ∨ ∃ code, s.haltCause = .fault code) →
    step s = .next (moveTaken s)) ∧
  (∀ s, HostNext .step s → s.schedState = .paused → (∀ code, s.haltCause ≠ .fault code) →
    let u := stepStart (moveTaken s)
    (4096 ≤ s.pc.toNat → step s = .next { u with haltCause := .pcPastEnd, schedState := .paused }) ∧
    (s.pc.toNat = 4095 → NoBreakpointAtPc s → step s = .next (FaultState .fetchOutOfRange u)) ∧
    (s.pc.toNat < 4095 → decode s.params.sysBehaviour (wordAtPc s) = none →
      (NoBreakpointAtPc s → step s = .next { u with haltCause := .decodeMiss, schedState := .paused }) ∧
      (∀ hits, BpTable.wf s.bps → ⟨s.pc.toNat, hits, true⟩ ∈ s.bps →
        step s = .next { u with
          bps := BpTable.put s.pc.toNat hits false s.bps, haltCause := .decodeMiss, schedState := .paused })))

/-- StartAsync works only from Stopped, Pause only from Running, Go only from Paused without a fault; each is
ignored else (R190, R191, R192). -/
def Obligations.LifecycleCommands : Prop :=
  (∀ s, HostNext .startAsync s →
    (s.schedState = .stopped → step s = .next { moveTaken s with schedState := .running, haltCause := .none }) ∧
    (s.schedState ≠ .stopped → step s = .next (moveTaken s))) ∧
  (∀ s, HostNext .pause s →
    (s.schedState = .running → step s = .next { moveTaken s with schedState := .paused }) ∧
    (s.schedState ≠ .running → step s = .next (moveTaken s))) ∧
  (∀ s, HostNext .go s →
    (s.schedState = .paused → (∀ code, s.haltCause ≠ .fault code) →
      step s = .next { moveTaken s with schedState := .running, haltCause := .none }) ∧
    ((s.schedState ≠ .paused ∨ ∃ code, s.haltCause = .fault code) → step s = .next (moveTaken s)))

/-- A command that falls only between ticks, and a timer move, wait at the head of the list while a tick is in
progress: the step is the core's own, and the move is still to come. R208 says where such a move falls and not what
becomes of one that comes earlier: that it waits is DEDUCED, assumption 7. -/
def Obligations.CommandsWaitForTickEnd : Prop :=
  ∀ s k m rest, s.burst = some k → s.moves = m :: rest →
    ((∃ b, m = .tickFire b) ∨ ∃ c, m = .host c ∧
      (c ∈ [.startAsync, .cancel, .pause, .go, .step, .stopAndReset, .tryStore true, .tryStore false] ∨
        (∃ image, c = .load image) ∨ ∃ p, c = .tryRestore p)) →
    step s = coreMove s ∧
    ∃ t, coreMove s = .next t ∧ t.moves = s.moves ∧ (t.burst = none ∨ ∃ j, t.burst = some j ∧ j < k)

/-! ## Faults, stops and reset (60, 70) -/

/-- A fault is sticky: no step but a reset or a cancellation takes the machine out of Paused with the fault
recorded, and with no tick in progress no step but a restore changes a register, a timer, memory, PC, the stack or
the surface (R213). -/
def Obligations.FaultIsSticky : Prop :=
  ∀ s code, s.schedState = .paused → s.haltCause = .fault code →
    (∀ c rest, s.moves = .host c :: rest → c ≠ .stopAndReset ∧ c ≠ .cancel) →
    ∃ t, step s = .next t ∧ t.schedState = .paused ∧ t.haltCause = .fault code ∧
      (s.burst = none → (∀ p rest, s.moves ≠ .host (.tryRestore p) :: rest) →
        t.burst = none ∧ t.v = s.v ∧ t.i = s.i ∧ t.pc = s.pc ∧ t.stack = s.stack ∧ t.mem = s.mem ∧
        t.dt = s.dt ∧ t.st = s.st ∧ t.surf = s.surf)

/-- The reset state, item by item, for every value of the parameters (R44). -/
def Obligations.ResetState : Prop :=
  ∀ p, let s := State.resetWith p
    (∀ r, getV r s = 0) ∧ s.i = 0 ∧ s.pc = 0x200 ∧ s.stack = [] ∧ s.dt = 0 ∧ s.st = 0 ∧
    (∀ a (h : a < 80), readMem s a = p.font[a]) ∧ (∀ a, 80 ≤ a → readMem s a = 0) ∧
    (∀ x y, x < 64 → y < 32 → getPixel s.surf x y = false) ∧ s.keys = 0 ∧ s.lastKey = none ∧
    s.schedState = .stopped ∧ s.haltCause = .none ∧ s.ipf = p.ipfDefault ∧ s.frameCount = 0 ∧ s.beep = false ∧
    s.bps = [] ∧ s.progCount = 0 ∧ s.progBytes = []

/-- Power-on is the reset state (R241) with the parameters at the values the spec gives a deterministic simulator
(R8, R63). That State.reset stands at those values is the model's choice, assumption 1. -/
def Obligations.PowerOnIsResetState : Prop :=
  ∃ p, State.reset = State.resetWith p ∧ p.wf ∧ p.sysBehaviour = .nop ∧ p.vfOrder = .flagLast ∧
    p.addIVfElse = .keep ∧ p.drwCoord = .beforeClear ∧ p.ipfDefault = 10 ∧
    p.font.toList.take 5 = [0xF0, 0x90, 0x90, 0x90, 0xF0] ∧ p.font.toList.drop 75 = [0xF0, 0x80, 0xF0, 0x80, 0x80]

/-- StopAndReset in every state, and Cancel in every state but Stopped, leave the reset state and emit no event; in
Stopped, Cancel is ignored (R184, R193, R194, R240). The model's choices in it: the parameters stay (assumption 1),
and so do the count of free values, the schedule and the event log (assumptions 3, 5, 8); Cancel stands where the
scheduler observes it (assumption 14). -/
def Obligations.StopAndResetResets : Prop :=
  (∀ s, (HostNext .stopAndReset s ∨ (HostNext .cancel s ∧ s.schedState ≠ .stopped)) →
    step s = .next { State.resetWith s.params with draws := s.draws, moves := s.moves.tail, out := s.out }) ∧
  (∀ s, HostNext .cancel s → s.schedState = .stopped → step s = .next (moveTaken s))

/-- The invariant holds after reset, for every legal value of the parameters. -/
def Obligations.ResetMeetsInvariant : Prop := ∀ p : Params, p.wf → CoreInv (State.resetWith p)

/-- Every step keeps the invariant, whatever the host and the timer do. -/
def Obligations.StepKeepsInvariant : Prop := ∀ s t, CoreInv s → step s = .next t → CoreInv t

/-- Every step keeps PC at or below 0x10FE and return addresses at or below 0x1000, provided the snapshots the host
restores do (R26, R103). -/
def Obligations.StepKeepsPcBounded : Prop := ∀ s t, PcInv s → step s = .next t → PcInv t

/-- Every step of every state answers a next state, no instruction refused and every fault taken, and no step changes
a parameter of R8 (the model's choices, assumptions 1 and 2). -/
def Obligations.StepAnswersAndKeepsParameters : Prop := ∀ s, ∃ t, step s = .next t ∧ t.params = s.params

/-! ## Host data commands (45, section 7) -/

/-- Load in Stopped, of at most 3584 bytes, writes the image from 0x200 on and nothing else of memory, records it,
and emits ProgramLoaded; in any other case it fails with NewMessage and no state change (R201). -/
def Obligations.LoadPlacesProgram : Prop :=
  ∀ s image, HostNext (.load image) s → Memory.wf s.params.font s.mem →
    (∀ bytes, image = some bytes → s.schedState = .stopped → bytes.length ≤ 3584 →
      ∃ t, step s = .next t ∧
        (∀ k (h : k < bytes.length), readMem t (0x200 + k) = bytes[k]) ∧
        MemKeptOutside 0x200 bytes.length s t ∧ t.progCount = bytes.length ∧ t.progBytes = bytes ∧
        t.out = .loadReply true :: .programLoaded bytes.length :: s.out ∧
        t = { moveTaken s with mem := t.mem, progCount := t.progCount, progBytes := t.progBytes, out := t.out }) ∧
    ((s.schedState ≠ .stopped ∨ image = none ∨ ∃ bytes, image = some bytes ∧ 3584 < bytes.length) →
      step s = .next { moveTaken s with out := .loadReply false :: .newMessage .loadFailed :: s.out })

/-- UpdateKeyState sets or clears one bit of KEYS; a press clears LASTKEY and a release sets it; a key above 15 is
ignored; it is accepted in every scheduler state, inside a tick too (R202). -/
def Obligations.UpdateKeyState : Prop :=
  ∀ s key pressed rest, s.moves = .host (.updateKeyState key pressed) :: rest →
    (15 < key → step s = .next { s with moves := rest }) ∧
    (∀ k : Reg, k.val = key →
      ∃ t, step s = .next t ∧ t.keys.getLsbD key = pressed ∧
        (∀ j, j ≠ key → t.keys.getLsbD j = s.keys.getLsbD j) ∧
        t.lastKey = (if pressed then none else some k) ∧
        t = { s with moves := rest, keys := t.keys, lastKey := t.lastKey })

/-- TryAddBreakpoint succeeds exactly for an even address of the loaded program without an entry, and then adds a
fresh one; TryRemoveBreakpoint succeeds exactly where there is an entry, and removes it; else nothing but the reply
(R196, R197). -/
def Obligations.BreakpointCommands : Prop :=
  (∀ s a rest, s.moves = .host (.tryAddBreakpoint a) :: rest →
    let ok := a.toNat % 2 = 0 ∧ 0x200 ≤ a.toNat ∧ a.toNat < 0x200 + s.progCount ∧ ∀ e ∈ s.bps, e.addr ≠ a.toNat
    ∃ t, step s = .next t ∧
      (ok → (∀ e, e ∈ t.bps ↔ e = ⟨a.toNat, 0, false⟩ ∨ e ∈ s.bps) ∧
        t = { s with moves := rest, bps := t.bps, out := .addBreakpointReply true a.toNat :: s.out }) ∧
      (¬ok → t = { s with moves := rest, out := .addBreakpointReply false a.toNat :: s.out })) ∧
  (∀ s a rest, s.moves = .host (.tryRemoveBreakpoint a) :: rest →
    ∃ t, step s = .next t ∧
      ((∃ e ∈ s.bps, e.addr = a.toNat) → (∀ e, e ∈ t.bps ↔ e ∈ s.bps ∧ e.addr ≠ a.toNat) ∧
        t = { s with moves := rest, bps := t.bps, out := .removeBreakpointReply true a.toNat :: s.out }) ∧
      ((∀ e ∈ s.bps, e.addr ≠ a.toNat) →
        t = { s with moves := rest, out := .removeBreakpointReply false a.toNat :: s.out }))

/-- TryRestore pauses first. It rejects a snapshot that cannot be read, of another program or with an IPF of 0, with
NewMessage and no other change; else it overwrites the thirteen fields at once and nothing else, and does not resume
(R207). That a snapshot whose memory is not in canonical form counts as one that cannot be read is the DESIGN CHOICE of
assumption 11; that a snapshot is taken whatever its other fields hold is that of assumption 12; that one that cannot
be read pauses first too is DEDUCED, assumption 25. -/
def Obligations.RestoreOverwritesOrRejects : Prop :=
  ∀ s snapshot, HostNext (.tryRestore snapshot) s →
    let afterPause := if s.schedState = .running then SchedState.paused else s.schedState
    (∀ p, snapshot = some p → Memory.wf s.params.font p.mem → p.progBytes = s.progBytes → p.ipf ≠ 0 →
      ∃ t, step s = .next t ∧ snapshotOf t = p ∧ t.schedState = afterPause ∧ t.out = .restoreReply true :: s.out ∧
        t = { moveTaken s with
          mem := t.mem, v := t.v, stack := t.stack, pc := t.pc, i := t.i, dt := t.dt, st := t.st, beep := t.beep,
          ipf := t.ipf, frameCount := t.frameCount, surf := t.surf, progBytes := t.progBytes,
          progCount := t.progCount, schedState := t.schedState, out := t.out }) ∧
    ((snapshot = none ∨ ∃ p, snapshot = some p ∧
        (p.progBytes ≠ s.progBytes ∨ p.ipf = 0 ∨ ¬Memory.wf s.params.font p.mem)) →
      step s = .next { moveTaken s with
        schedState := afterPause, out := .restoreReply false :: .newMessage .restoreRejected :: s.out })

/-- What TryStore captured of a state that meets the invariant, TryRestore gives back in any state with the same
program and parameters, whatever ran between: the two are inverse on the thirteen fields (R206, R207). A snapshot's
memory is the model's list for one font (DESIGN CHOICE, assumption 11), which is why the parameters agree. -/
def Obligations.StoreThenRestore : Prop :=
  ∀ s0 s, CoreInv s0 → s0.params = s.params → s0.progBytes = s.progBytes →
    HostNext (.tryStore true) s0 → HostNext (.tryRestore (some (snapshotOf s0))) s →
    ∃ t0 t, step s0 = .next t0 ∧ t0.out = .storeReply (some (snapshotOf s0)) :: s0.out ∧ step s = .next t ∧
      snapshotOf t = snapshotOf s0 ∧ t.keys = s.keys ∧ t.lastKey = s.lastKey ∧ t.bps = s.bps ∧
      t.haltCause = s.haltCause

/-- The accessors give the host the current value and change nothing else, inside a tick too; GetOpcode gives the
big-endian word at an address, and an error where its second byte does not exist (R203, R204). -/
def Obligations.AccessorsChangeNothing : Prop :=
  (∀ s c o rest, s.moves = .host c :: rest →
    (c, o) ∈ [(Command.getSurface, Output.surfaceView s.surf), (.getRegisters, .registersView s.v),
      (.getIRegister, .iRegisterView s.i), (.getProgramCounter, .programCounterView s.pc),
      (.getMemory, .memoryView s.mem)] →
    step s = .next { s with moves := rest, out := o :: s.out }) ∧
  (∀ s a rest, s.moves = .host (.getOpcode a) :: rest →
    (a + 1 < 4096 → step s = .next { s with
      moves := rest
      out := .opcodeReply (some (BitVec.ofNat 16 ((readMem s a).toNat * 256 + (readMem s (a + 1)).toNat))) ::
        s.out }) ∧
    (4096 ≤ a + 1 → step s = .next { s with moves := rest, out := .opcodeReply none :: s.out }))

/-- GetMnemonic gives the host a text for a word, and the host's reads of SCHED_STATE and HALT_CAUSE their current
value; each changes nothing else, inside a tick too (R205, R35, R40, R42). The model's choices: the text is an opaque
constant, assumption 17, and there is one read for each of the two fields, assumption 23. -/
def Obligations.HostReadsChangeNothing : Prop :=
  ∀ s c o rest, s.moves = .host c :: rest →
    ((∃ w, c = .getMnemonic w ∧ o = .mnemonicReply (Config.mnemonicText w)) ∨
      (c = .getSchedState ∧ o = .schedStateView s.schedState) ∨
      (c = .getHaltCause ∧ o = .haltCauseView s.haltCause)) →
    step s = .next { s with moves := rest, out := o :: s.out }

/-- TryStore gives the host the snapshot of the thirteen fields, or a failure, and changes nothing else (R206). That
the writing may fail is an argument of the move, and that a failed TryStore emits no NewMessage (R182, R218) is the
DESIGN CHOICE of assumption 13. -/
def Obligations.TryStoreChangesNothing : Prop :=
  ∀ s ok, HostNext (.tryStore ok) s →
    step s = .next { moveTaken s with
      out := .storeReply (if ok then some {
        mem := s.mem, v := s.v, stack := s.stack, pc := s.pc, i := s.i, dt := s.dt, st := s.st, beep := s.beep,
        ipf := s.ipf, frameCount := s.frameCount, surf := s.surf, progBytes := s.progBytes,
        progCount := s.progCount } else none) :: s.out }

/-- Boot: after reset, Load then StartAsync then a tick, the core is Running from 0x200 with the program in memory,
the burst about to run (R244, R245). The moves as a list are the model's form, assumptions 5 and 16. -/
def Obligations.BootRunsFromEntryPoint : Prop :=
  ∀ p bytes b, bytes.length ≤ 3584 →
    ∃ t, Sys2Proof.core.run 3 { State.resetWith p with
        moves := [.host (.load (some bytes)), .host .startAsync, .tickFire b] } = .next t ∧
      t.schedState = .running ∧ t.pc = 0x200 ∧ t.burst = some b ∧ t.progCount = bytes.length ∧
      (∀ k (h : k < bytes.length), readMem t (0x200 + k) = bytes[k]) ∧
      (∀ a, 0x200 + bytes.length ≤ a → readMem t a = 0) ∧ (∀ r, getV r t = 0) ∧ t.stack = []
end

