-- ==== Sys2Proof/Laws/Decode.lean ====
section
/-! SUPPORT. The fields of an encoded word are the operands it was encoded from, and the bytes of a word give it
back. -/

namespace Sys2Proof

/-- A word is the number of its value. -/
theorem word_eq_of_toNat {v w : Word} (h : v.toNat = w.toNat) : v = w := BitVec.eq_of_toNat_eq h

@[simp] theorem wordOfBytes_hiByte_loByte (w : Word) : wordOfBytes (hiByte w) (loByte w) = w := by
  have := w.isLt
  refine word_eq_of_toNat ?_
  simp only [wordOfBytes, hiByte, loByte, BitVec.toNat_ofNat]
  omega

/-- Big-endian: the first byte supplies bits 15:8 (R54). -/
theorem wordOfBytes_toNat (hi lo : Byte) : (wordOfBytes hi lo).toNat = hi.toNat * 256 + lo.toNat := by
  have := hi.isLt
  have := lo.isLt
  simp only [wordOfBytes, BitVec.toNat_ofNat]
  omega

/-! ## Format A -/

@[simp] theorem fieldOp_encodeA (op : Nat) (nnn : Addr12) (h : op < 16) : fieldOp (encodeA op nnn) = op := by
  have := nnn.isLt
  simp only [fieldOp, encodeA, BitVec.toNat_ofNat]
  omega

@[simp] theorem fieldNNN_encodeA (op : Nat) (nnn : Addr12) : fieldNNN (encodeA op nnn) = nnn := by
  have := nnn.isLt
  refine BitVec.eq_of_toNat_eq ?_
  simp only [fieldNNN, encodeA, BitVec.toNat_ofNat]
  omega

/-! ## Formats XNN and X -/

@[simp] theorem fieldOp_encodeXNN (op : Nat) (x : Reg) (nn : Byte) (h : op < 16) :
    fieldOp (encodeXNN op x nn) = op := by
  have := x.isLt
  have := nn.isLt
  simp only [fieldOp, encodeXNN, BitVec.toNat_ofNat]
  omega

@[simp] theorem fieldX_encodeXNN (op : Nat) (x : Reg) (nn : Byte) : fieldX (encodeXNN op x nn) = x := by
  have := x.isLt
  have := nn.isLt
  refine Fin.ext ?_
  simp only [fieldX, encodeXNN, BitVec.toNat_ofNat, Fin.ofNat]
  omega

@[simp] theorem fieldNN_encodeXNN (op : Nat) (x : Reg) (nn : Byte) : fieldNN (encodeXNN op x nn) = nn := by
  have := nn.isLt
  refine BitVec.eq_of_toNat_eq ?_
  simp only [fieldNN, encodeXNN, BitVec.toNat_ofNat]
  omega

/-! ## Formats XYN and XY -/

@[simp] theorem fieldOp_encodeXYN (op : Nat) (x y n : Reg) (h : op < 16) :
    fieldOp (encodeXYN op x y n) = op := by
  have := x.isLt
  have := y.isLt
  have := n.isLt
  simp only [fieldOp, encodeXYN, BitVec.toNat_ofNat]
  omega

@[simp] theorem fieldX_encodeXYN (op : Nat) (x y n : Reg) : fieldX (encodeXYN op x y n) = x := by
  have := x.isLt
  have := y.isLt
  have := n.isLt
  refine Fin.ext ?_
  simp only [fieldX, encodeXYN, BitVec.toNat_ofNat, Fin.ofNat]
  omega

@[simp] theorem fieldY_encodeXYN (op : Nat) (x y n : Reg) : fieldY (encodeXYN op x y n) = y := by
  have := y.isLt
  have := n.isLt
  refine Fin.ext ?_
  simp only [fieldY, encodeXYN, BitVec.toNat_ofNat, Fin.ofNat]
  omega

@[simp] theorem fieldN_encodeXYN (op : Nat) (x y n : Reg) : fieldN (encodeXYN op x y n) = n := by
  have := n.isLt
  refine Fin.ext ?_
  simp only [fieldN, encodeXYN, BitVec.toNat_ofNat, Fin.ofNat]
  omega

/-! ## The masks of R88, as arithmetic -/

/-- Masking with F000 keeps the major nibble. -/
theorem and_F000 (w : Word) : w &&& 0xF000 = BitVec.ofNat 16 (w.toNat / 4096 * 4096) := by
  refine BitVec.eq_of_getLsbD_eq fun i hi => ?_
  have hm : ((0xF000 : Word)).getLsbD i = decide (12 ≤ i) := by interval_cases i <;> rfl
  have : w.toNat / 4096 * 4096 = (w.toNat >>> 12) <<< 12 := by simp [Nat.shiftRight_eq_div_pow, Nat.shiftLeft_eq]
  rw [BitVec.getLsbD_and, hm, BitVec.getLsbD_ofNat, this, Nat.testBit_shiftLeft, Nat.testBit_shiftRight]
  by_cases h : 12 ≤ i
  · simp [h, hi, BitVec.getLsbD, Nat.add_sub_cancel' h]
  · simp [h]

/-- Masking with F00F keeps the major and the function nibble. -/
theorem and_F00F (w : Word) : w &&& 0xF00F = BitVec.ofNat 16 (w.toNat / 4096 * 4096 + w.toNat % 16) := by
  have hsplit : w &&& 0xF00F = (w &&& 0xF000) ||| (w &&& 0x000F) := by
    rw [← BitVec.and_or_distrib_left]; rfl
  have hlow : w &&& 0x000F = BitVec.ofNat 16 (w.toNat % 16) := by
    refine word_eq_of_toNat ?_
    rw [BitVec.toNat_and, show (0x000F : Word).toNat = 2 ^ 4 - 1 from rfl, Nat.and_two_pow_sub_one_eq_mod]
    simp only [BitVec.toNat_ofNat]
    omega
  have hadd : BitVec.ofNat 16 (w.toNat / 4096 * 4096 + w.toNat % 16) =
      BitVec.ofNat 16 (w.toNat / 4096 * 4096) + BitVec.ofNat 16 (w.toNat % 16) := by
    rw [BitVec.ofNat_add]
  rw [hsplit, hadd, ← and_F000, ← hlow]
  refine (BitVec.add_eq_or_of_and_eq_zero _ _ ?_).symm
  rw [show (w &&& 0xF000) &&& (w &&& 0x000F) = w &&& w &&& (0xF000 &&& 0x000F) by
    ext i; simp only [BitVec.getElem_and]; cases w[i] <;> simp]
  simp

/-- Masking with F0FF keeps the major nibble and the function byte. -/
theorem and_F0FF (w : Word) : w &&& 0xF0FF = BitVec.ofNat 16 (w.toNat / 4096 * 4096 + w.toNat % 256) := by
  have hsplit : w &&& 0xF0FF = (w &&& 0xF000) ||| (w &&& 0x00FF) := by
    rw [← BitVec.and_or_distrib_left]; rfl
  have hlow : w &&& 0x00FF = BitVec.ofNat 16 (w.toNat % 256) := by
    refine word_eq_of_toNat ?_
    rw [BitVec.toNat_and, show (0x00FF : Word).toNat = 2 ^ 8 - 1 from rfl, Nat.and_two_pow_sub_one_eq_mod]
    simp only [BitVec.toNat_ofNat]
    omega
  have hadd : BitVec.ofNat 16 (w.toNat / 4096 * 4096 + w.toNat % 256) =
      BitVec.ofNat 16 (w.toNat / 4096 * 4096) + BitVec.ofNat 16 (w.toNat % 256) := by
    rw [BitVec.ofNat_add]
  rw [hsplit, hadd, ← and_F000, ← hlow]
  refine (BitVec.add_eq_or_of_and_eq_zero _ _ ?_).symm
  rw [show (w &&& 0xF000) &&& (w &&& 0x00FF) = w &&& w &&& (0xF000 &&& 0x00FF) by
    ext i; simp only [BitVec.getElem_and]; cases w[i] <;> simp]
  simp

/-- Masking with FFFF keeps the word. -/
theorem and_FFFF (w : Word) : w &&& 0xFFFF = w := BitVec.and_allOnes

end Sys2Proof
end

