-- ==== Sys2Proof/Laws/State.lean ====
section
/-! SUPPORT. One lemma per field of State for each shared update, so that no proof unfolds a record update. -/

namespace Sys2Proof.Machine

/-! ## setV -/

@[simp] theorem setV_v (x : Reg) (b : Byte) (s : State) : (setV x b s).v = s.v.set x.val b := rfl
@[simp] theorem setV_i (x : Reg) (b : Byte) (s : State) : (setV x b s).i = s.i := rfl
@[simp] theorem setV_pc (x : Reg) (b : Byte) (s : State) : (setV x b s).pc = s.pc := rfl
@[simp] theorem setV_stack (x : Reg) (b : Byte) (s : State) : (setV x b s).stack = s.stack := rfl
@[simp] theorem setV_dt (x : Reg) (b : Byte) (s : State) : (setV x b s).dt = s.dt := rfl
@[simp] theorem setV_st (x : Reg) (b : Byte) (s : State) : (setV x b s).st = s.st := rfl
@[simp] theorem setV_mem (x : Reg) (b : Byte) (s : State) : (setV x b s).mem = s.mem := rfl
@[simp] theorem setV_surf (x : Reg) (b : Byte) (s : State) : (setV x b s).surf = s.surf := rfl
@[simp] theorem setV_keys (x : Reg) (b : Byte) (s : State) : (setV x b s).keys = s.keys := rfl
@[simp] theorem setV_lastKey (x : Reg) (b : Byte) (s : State) : (setV x b s).lastKey = s.lastKey := rfl
@[simp] theorem setV_schedState (x : Reg) (b : Byte) (s : State) : (setV x b s).schedState = s.schedState := rfl
@[simp] theorem setV_ipf (x : Reg) (b : Byte) (s : State) : (setV x b s).ipf = s.ipf := rfl
@[simp] theorem setV_beep (x : Reg) (b : Byte) (s : State) : (setV x b s).beep = s.beep := rfl
@[simp] theorem setV_frameCount (x : Reg) (b : Byte) (s : State) : (setV x b s).frameCount = s.frameCount := rfl
@[simp] theorem setV_bps (x : Reg) (b : Byte) (s : State) : (setV x b s).bps = s.bps := rfl
@[simp] theorem setV_haltCause (x : Reg) (b : Byte) (s : State) : (setV x b s).haltCause = s.haltCause := rfl
@[simp] theorem setV_progCount (x : Reg) (b : Byte) (s : State) : (setV x b s).progCount = s.progCount := rfl
@[simp] theorem setV_progBytes (x : Reg) (b : Byte) (s : State) : (setV x b s).progBytes = s.progBytes := rfl
@[simp] theorem setV_params (x : Reg) (b : Byte) (s : State) : (setV x b s).params = s.params := rfl
@[simp] theorem setV_burst (x : Reg) (b : Byte) (s : State) : (setV x b s).burst = s.burst := rfl
@[simp] theorem setV_draws (x : Reg) (b : Byte) (s : State) : (setV x b s).draws = s.draws := rfl
@[simp] theorem setV_moves (x : Reg) (b : Byte) (s : State) : (setV x b s).moves = s.moves := rfl
@[simp] theorem setV_out (x : Reg) (b : Byte) (s : State) : (setV x b s).out = s.out := rfl

/-! ## setI -/

@[simp] theorem setI_v (w : Word) (s : State) : (setI w s).v = s.v := rfl
@[simp] theorem setI_i (w : Word) (s : State) : (setI w s).i = w := rfl
@[simp] theorem setI_pc (w : Word) (s : State) : (setI w s).pc = s.pc := rfl
@[simp] theorem setI_stack (w : Word) (s : State) : (setI w s).stack = s.stack := rfl
@[simp] theorem setI_dt (w : Word) (s : State) : (setI w s).dt = s.dt := rfl
@[simp] theorem setI_st (w : Word) (s : State) : (setI w s).st = s.st := rfl
@[simp] theorem setI_mem (w : Word) (s : State) : (setI w s).mem = s.mem := rfl
@[simp] theorem setI_surf (w : Word) (s : State) : (setI w s).surf = s.surf := rfl
@[simp] theorem setI_keys (w : Word) (s : State) : (setI w s).keys = s.keys := rfl
@[simp] theorem setI_lastKey (w : Word) (s : State) : (setI w s).lastKey = s.lastKey := rfl
@[simp] theorem setI_schedState (w : Word) (s : State) : (setI w s).schedState = s.schedState := rfl
@[simp] theorem setI_ipf (w : Word) (s : State) : (setI w s).ipf = s.ipf := rfl
@[simp] theorem setI_beep (w : Word) (s : State) : (setI w s).beep = s.beep := rfl
@[simp] theorem setI_frameCount (w : Word) (s : State) : (setI w s).frameCount = s.frameCount := rfl
@[simp] theorem setI_bps (w : Word) (s : State) : (setI w s).bps = s.bps := rfl
@[simp] theorem setI_haltCause (w : Word) (s : State) : (setI w s).haltCause = s.haltCause := rfl
@[simp] theorem setI_progCount (w : Word) (s : State) : (setI w s).progCount = s.progCount := rfl
@[simp] theorem setI_progBytes (w : Word) (s : State) : (setI w s).progBytes = s.progBytes := rfl
@[simp] theorem setI_params (w : Word) (s : State) : (setI w s).params = s.params := rfl
@[simp] theorem setI_burst (w : Word) (s : State) : (setI w s).burst = s.burst := rfl
@[simp] theorem setI_draws (w : Word) (s : State) : (setI w s).draws = s.draws := rfl
@[simp] theorem setI_moves (w : Word) (s : State) : (setI w s).moves = s.moves := rfl
@[simp] theorem setI_out (w : Word) (s : State) : (setI w s).out = s.out := rfl

/-! ## advance -/

@[simp] theorem advance_v (s : State) : (advance s).v = s.v := rfl
@[simp] theorem advance_i (s : State) : (advance s).i = s.i := rfl
@[simp] theorem advance_pc (s : State) : (advance s).pc = s.pc + 2 := rfl
@[simp] theorem advance_stack (s : State) : (advance s).stack = s.stack := rfl
@[simp] theorem advance_dt (s : State) : (advance s).dt = s.dt := rfl
@[simp] theorem advance_st (s : State) : (advance s).st = s.st := rfl
@[simp] theorem advance_mem (s : State) : (advance s).mem = s.mem := rfl
@[simp] theorem advance_surf (s : State) : (advance s).surf = s.surf := rfl
@[simp] theorem advance_keys (s : State) : (advance s).keys = s.keys := rfl
@[simp] theorem advance_lastKey (s : State) : (advance s).lastKey = s.lastKey := rfl
@[simp] theorem advance_schedState (s : State) : (advance s).schedState = s.schedState := rfl
@[simp] theorem advance_ipf (s : State) : (advance s).ipf = s.ipf := rfl
@[simp] theorem advance_beep (s : State) : (advance s).beep = s.beep := rfl
@[simp] theorem advance_frameCount (s : State) : (advance s).frameCount = s.frameCount := rfl
@[simp] theorem advance_bps (s : State) : (advance s).bps = s.bps := rfl
@[simp] theorem advance_haltCause (s : State) : (advance s).haltCause = s.haltCause := rfl
@[simp] theorem advance_progCount (s : State) : (advance s).progCount = s.progCount := rfl
@[simp] theorem advance_progBytes (s : State) : (advance s).progBytes = s.progBytes := rfl
@[simp] theorem advance_params (s : State) : (advance s).params = s.params := rfl
@[simp] theorem advance_burst (s : State) : (advance s).burst = s.burst := rfl
@[simp] theorem advance_draws (s : State) : (advance s).draws = s.draws := rfl
@[simp] theorem advance_moves (s : State) : (advance s).moves = s.moves := rfl
@[simp] theorem advance_out (s : State) : (advance s).out = s.out := rfl

/-! ## skipIf -/

@[simp] theorem skipIf_v (c : Bool) (s : State) : (skipIf c s).v = s.v := rfl
@[simp] theorem skipIf_i (c : Bool) (s : State) : (skipIf c s).i = s.i := rfl
@[simp] theorem skipIf_pc (c : Bool) (s : State) :
    (skipIf c s).pc = if c then s.pc + 4 else s.pc + 2 := rfl
@[simp] theorem skipIf_stack (c : Bool) (s : State) : (skipIf c s).stack = s.stack := rfl
@[simp] theorem skipIf_dt (c : Bool) (s : State) : (skipIf c s).dt = s.dt := rfl
@[simp] theorem skipIf_st (c : Bool) (s : State) : (skipIf c s).st = s.st := rfl
@[simp] theorem skipIf_mem (c : Bool) (s : State) : (skipIf c s).mem = s.mem := rfl
@[simp] theorem skipIf_surf (c : Bool) (s : State) : (skipIf c s).surf = s.surf := rfl
@[simp] theorem skipIf_keys (c : Bool) (s : State) : (skipIf c s).keys = s.keys := rfl
@[simp] theorem skipIf_lastKey (c : Bool) (s : State) : (skipIf c s).lastKey = s.lastKey := rfl
@[simp] theorem skipIf_schedState (c : Bool) (s : State) : (skipIf c s).schedState = s.schedState := rfl
@[simp] theorem skipIf_ipf (c : Bool) (s : State) : (skipIf c s).ipf = s.ipf := rfl
@[simp] theorem skipIf_beep (c : Bool) (s : State) : (skipIf c s).beep = s.beep := rfl
@[simp] theorem skipIf_frameCount (c : Bool) (s : State) : (skipIf c s).frameCount = s.frameCount := rfl
@[simp] theorem skipIf_bps (c : Bool) (s : State) : (skipIf c s).bps = s.bps := rfl
@[simp] theorem skipIf_haltCause (c : Bool) (s : State) : (skipIf c s).haltCause = s.haltCause := rfl
@[simp] theorem skipIf_progCount (c : Bool) (s : State) : (skipIf c s).progCount = s.progCount := rfl
@[simp] theorem skipIf_progBytes (c : Bool) (s : State) : (skipIf c s).progBytes = s.progBytes := rfl
@[simp] theorem skipIf_params (c : Bool) (s : State) : (skipIf c s).params = s.params := rfl
@[simp] theorem skipIf_burst (c : Bool) (s : State) : (skipIf c s).burst = s.burst := rfl
@[simp] theorem skipIf_draws (c : Bool) (s : State) : (skipIf c s).draws = s.draws := rfl
@[simp] theorem skipIf_moves (c : Bool) (s : State) : (skipIf c s).moves = s.moves := rfl
@[simp] theorem skipIf_out (c : Bool) (s : State) : (skipIf c s).out = s.out := rfl

/-! ## jumpTo -/

@[simp] theorem jumpTo_v (w : Word) (s : State) : (jumpTo w s).v = s.v := rfl
@[simp] theorem jumpTo_i (w : Word) (s : State) : (jumpTo w s).i = s.i := rfl
@[simp] theorem jumpTo_pc (w : Word) (s : State) : (jumpTo w s).pc = w := rfl
@[simp] theorem jumpTo_stack (w : Word) (s : State) : (jumpTo w s).stack = s.stack := rfl
@[simp] theorem jumpTo_dt (w : Word) (s : State) : (jumpTo w s).dt = s.dt := rfl
@[simp] theorem jumpTo_st (w : Word) (s : State) : (jumpTo w s).st = s.st := rfl
@[simp] theorem jumpTo_mem (w : Word) (s : State) : (jumpTo w s).mem = s.mem := rfl
@[simp] theorem jumpTo_surf (w : Word) (s : State) : (jumpTo w s).surf = s.surf := rfl
@[simp] theorem jumpTo_keys (w : Word) (s : State) : (jumpTo w s).keys = s.keys := rfl
@[simp] theorem jumpTo_lastKey (w : Word) (s : State) : (jumpTo w s).lastKey = s.lastKey := rfl
@[simp] theorem jumpTo_schedState (w : Word) (s : State) : (jumpTo w s).schedState = s.schedState := rfl
@[simp] theorem jumpTo_ipf (w : Word) (s : State) : (jumpTo w s).ipf = s.ipf := rfl
@[simp] theorem jumpTo_beep (w : Word) (s : State) : (jumpTo w s).beep = s.beep := rfl
@[simp] theorem jumpTo_frameCount (w : Word) (s : State) : (jumpTo w s).frameCount = s.frameCount := rfl
@[simp] theorem jumpTo_bps (w : Word) (s : State) : (jumpTo w s).bps = s.bps := rfl
@[simp] theorem jumpTo_haltCause (w : Word) (s : State) : (jumpTo w s).haltCause = s.haltCause := rfl
@[simp] theorem jumpTo_progCount (w : Word) (s : State) : (jumpTo w s).progCount = s.progCount := rfl
@[simp] theorem jumpTo_progBytes (w : Word) (s : State) : (jumpTo w s).progBytes = s.progBytes := rfl
@[simp] theorem jumpTo_params (w : Word) (s : State) : (jumpTo w s).params = s.params := rfl
@[simp] theorem jumpTo_burst (w : Word) (s : State) : (jumpTo w s).burst = s.burst := rfl
@[simp] theorem jumpTo_draws (w : Word) (s : State) : (jumpTo w s).draws = s.draws := rfl
@[simp] theorem jumpTo_moves (w : Word) (s : State) : (jumpTo w s).moves = s.moves := rfl
@[simp] theorem jumpTo_out (w : Word) (s : State) : (jumpTo w s).out = s.out := rfl

/-! ## push -/

@[simp] theorem push_v (w : Word) (s : State) : (push w s).v = s.v := rfl
@[simp] theorem push_i (w : Word) (s : State) : (push w s).i = s.i := rfl
@[simp] theorem push_pc (w : Word) (s : State) : (push w s).pc = s.pc := rfl
@[simp] theorem push_stack (w : Word) (s : State) : (push w s).stack = w :: s.stack := rfl
@[simp] theorem push_dt (w : Word) (s : State) : (push w s).dt = s.dt := rfl
@[simp] theorem push_st (w : Word) (s : State) : (push w s).st = s.st := rfl
@[simp] theorem push_mem (w : Word) (s : State) : (push w s).mem = s.mem := rfl
@[simp] theorem push_surf (w : Word) (s : State) : (push w s).surf = s.surf := rfl
@[simp] theorem push_keys (w : Word) (s : State) : (push w s).keys = s.keys := rfl
@[simp] theorem push_lastKey (w : Word) (s : State) : (push w s).lastKey = s.lastKey := rfl
@[simp] theorem push_schedState (w : Word) (s : State) : (push w s).schedState = s.schedState := rfl
@[simp] theorem push_ipf (w : Word) (s : State) : (push w s).ipf = s.ipf := rfl
@[simp] theorem push_beep (w : Word) (s : State) : (push w s).beep = s.beep := rfl
@[simp] theorem push_frameCount (w : Word) (s : State) : (push w s).frameCount = s.frameCount := rfl
@[simp] theorem push_bps (w : Word) (s : State) : (push w s).bps = s.bps := rfl
@[simp] theorem push_haltCause (w : Word) (s : State) : (push w s).haltCause = s.haltCause := rfl
@[simp] theorem push_progCount (w : Word) (s : State) : (push w s).progCount = s.progCount := rfl
@[simp] theorem push_progBytes (w : Word) (s : State) : (push w s).progBytes = s.progBytes := rfl
@[simp] theorem push_params (w : Word) (s : State) : (push w s).params = s.params := rfl
@[simp] theorem push_burst (w : Word) (s : State) : (push w s).burst = s.burst := rfl
@[simp] theorem push_draws (w : Word) (s : State) : (push w s).draws = s.draws := rfl
@[simp] theorem push_moves (w : Word) (s : State) : (push w s).moves = s.moves := rfl
@[simp] theorem push_out (w : Word) (s : State) : (push w s).out = s.out := rfl

/-! ## emit -/

@[simp] theorem emit_v (o : Output) (s : State) : (emit o s).v = s.v := rfl
@[simp] theorem emit_i (o : Output) (s : State) : (emit o s).i = s.i := rfl
@[simp] theorem emit_pc (o : Output) (s : State) : (emit o s).pc = s.pc := rfl
@[simp] theorem emit_stack (o : Output) (s : State) : (emit o s).stack = s.stack := rfl
@[simp] theorem emit_dt (o : Output) (s : State) : (emit o s).dt = s.dt := rfl
@[simp] theorem emit_st (o : Output) (s : State) : (emit o s).st = s.st := rfl
@[simp] theorem emit_mem (o : Output) (s : State) : (emit o s).mem = s.mem := rfl
@[simp] theorem emit_surf (o : Output) (s : State) : (emit o s).surf = s.surf := rfl
@[simp] theorem emit_keys (o : Output) (s : State) : (emit o s).keys = s.keys := rfl
@[simp] theorem emit_lastKey (o : Output) (s : State) : (emit o s).lastKey = s.lastKey := rfl
@[simp] theorem emit_schedState (o : Output) (s : State) : (emit o s).schedState = s.schedState := rfl
@[simp] theorem emit_ipf (o : Output) (s : State) : (emit o s).ipf = s.ipf := rfl
@[simp] theorem emit_beep (o : Output) (s : State) : (emit o s).beep = s.beep := rfl
@[simp] theorem emit_frameCount (o : Output) (s : State) : (emit o s).frameCount = s.frameCount := rfl
@[simp] theorem emit_bps (o : Output) (s : State) : (emit o s).bps = s.bps := rfl
@[simp] theorem emit_haltCause (o : Output) (s : State) : (emit o s).haltCause = s.haltCause := rfl
@[simp] theorem emit_progCount (o : Output) (s : State) : (emit o s).progCount = s.progCount := rfl
@[simp] theorem emit_progBytes (o : Output) (s : State) : (emit o s).progBytes = s.progBytes := rfl
@[simp] theorem emit_params (o : Output) (s : State) : (emit o s).params = s.params := rfl
@[simp] theorem emit_burst (o : Output) (s : State) : (emit o s).burst = s.burst := rfl
@[simp] theorem emit_draws (o : Output) (s : State) : (emit o s).draws = s.draws := rfl
@[simp] theorem emit_moves (o : Output) (s : State) : (emit o s).moves = s.moves := rfl
@[simp] theorem emit_out (o : Output) (s : State) : (emit o s).out = o :: s.out := rfl

/-! ## halt -/

@[simp] theorem halt_v (c : HaltCause) (s : State) : (halt c s).v = s.v := rfl
@[simp] theorem halt_i (c : HaltCause) (s : State) : (halt c s).i = s.i := rfl
@[simp] theorem halt_pc (c : HaltCause) (s : State) : (halt c s).pc = s.pc := rfl
@[simp] theorem halt_stack (c : HaltCause) (s : State) : (halt c s).stack = s.stack := rfl
@[simp] theorem halt_dt (c : HaltCause) (s : State) : (halt c s).dt = s.dt := rfl
@[simp] theorem halt_st (c : HaltCause) (s : State) : (halt c s).st = s.st := rfl
@[simp] theorem halt_mem (c : HaltCause) (s : State) : (halt c s).mem = s.mem := rfl
@[simp] theorem halt_surf (c : HaltCause) (s : State) : (halt c s).surf = s.surf := rfl
@[simp] theorem halt_keys (c : HaltCause) (s : State) : (halt c s).keys = s.keys := rfl
@[simp] theorem halt_lastKey (c : HaltCause) (s : State) : (halt c s).lastKey = s.lastKey := rfl
@[simp] theorem halt_schedState (c : HaltCause) (s : State) : (halt c s).schedState = .paused := rfl
@[simp] theorem halt_ipf (c : HaltCause) (s : State) : (halt c s).ipf = s.ipf := rfl
@[simp] theorem halt_beep (c : HaltCause) (s : State) : (halt c s).beep = s.beep := rfl
@[simp] theorem halt_frameCount (c : HaltCause) (s : State) : (halt c s).frameCount = s.frameCount := rfl
@[simp] theorem halt_bps (c : HaltCause) (s : State) : (halt c s).bps = s.bps := rfl
@[simp] theorem halt_haltCause (c : HaltCause) (s : State) : (halt c s).haltCause = c := rfl
@[simp] theorem halt_progCount (c : HaltCause) (s : State) : (halt c s).progCount = s.progCount := rfl
@[simp] theorem halt_progBytes (c : HaltCause) (s : State) : (halt c s).progBytes = s.progBytes := rfl
@[simp] theorem halt_params (c : HaltCause) (s : State) : (halt c s).params = s.params := rfl
@[simp] theorem halt_burst (c : HaltCause) (s : State) : (halt c s).burst = s.burst := rfl
@[simp] theorem halt_draws (c : HaltCause) (s : State) : (halt c s).draws = s.draws := rfl
@[simp] theorem halt_moves (c : HaltCause) (s : State) : (halt c s).moves = s.moves := rfl
@[simp] theorem halt_out (c : HaltCause) (s : State) : (halt c s).out = s.out := rfl

/-! ## takeFault -/

@[simp] theorem takeFault_v (c : Fault) (s : State) : (takeFault c s).v = s.v := rfl
@[simp] theorem takeFault_i (c : Fault) (s : State) : (takeFault c s).i = s.i := rfl
@[simp] theorem takeFault_pc (c : Fault) (s : State) : (takeFault c s).pc = s.pc := rfl
@[simp] theorem takeFault_stack (c : Fault) (s : State) : (takeFault c s).stack = s.stack := rfl
@[simp] theorem takeFault_dt (c : Fault) (s : State) : (takeFault c s).dt = s.dt := rfl
@[simp] theorem takeFault_st (c : Fault) (s : State) : (takeFault c s).st = s.st := rfl
@[simp] theorem takeFault_mem (c : Fault) (s : State) : (takeFault c s).mem = s.mem := rfl
@[simp] theorem takeFault_surf (c : Fault) (s : State) : (takeFault c s).surf = s.surf := rfl
@[simp] theorem takeFault_keys (c : Fault) (s : State) : (takeFault c s).keys = s.keys := rfl
@[simp] theorem takeFault_lastKey (c : Fault) (s : State) : (takeFault c s).lastKey = s.lastKey := rfl
@[simp] theorem takeFault_schedState (c : Fault) (s : State) : (takeFault c s).schedState = .paused := rfl
@[simp] theorem takeFault_ipf (c : Fault) (s : State) : (takeFault c s).ipf = s.ipf := rfl
@[simp] theorem takeFault_beep (c : Fault) (s : State) : (takeFault c s).beep = s.beep := rfl
@[simp] theorem takeFault_frameCount (c : Fault) (s : State) : (takeFault c s).frameCount = s.frameCount := rfl
@[simp] theorem takeFault_bps (c : Fault) (s : State) : (takeFault c s).bps = s.bps := rfl
@[simp] theorem takeFault_haltCause (c : Fault) (s : State) : (takeFault c s).haltCause = .fault c := rfl
@[simp] theorem takeFault_progCount (c : Fault) (s : State) : (takeFault c s).progCount = s.progCount := rfl
@[simp] theorem takeFault_progBytes (c : Fault) (s : State) : (takeFault c s).progBytes = s.progBytes := rfl
@[simp] theorem takeFault_params (c : Fault) (s : State) : (takeFault c s).params = s.params := rfl
@[simp] theorem takeFault_burst (c : Fault) (s : State) : (takeFault c s).burst = s.burst := rfl
@[simp] theorem takeFault_draws (c : Fault) (s : State) : (takeFault c s).draws = s.draws := rfl
@[simp] theorem takeFault_moves (c : Fault) (s : State) : (takeFault c s).moves = s.moves := rfl
@[simp] theorem takeFault_out (c : Fault) (s : State) :
    (takeFault c s).out = .newMessage (.fault c) :: s.out := rfl

/-! ## takePartialFault -/

@[simp] theorem takePartialFault_v (c : Fault) (s : State) : (takePartialFault c s).v = s.v := rfl
@[simp] theorem takePartialFault_i (c : Fault) (s : State) : (takePartialFault c s).i = s.i := rfl
@[simp] theorem takePartialFault_pc (c : Fault) (s : State) : (takePartialFault c s).pc = s.pc := rfl
@[simp] theorem takePartialFault_stack (c : Fault) (s : State) : (takePartialFault c s).stack = s.stack := rfl
@[simp] theorem takePartialFault_dt (c : Fault) (s : State) : (takePartialFault c s).dt = s.dt := rfl
@[simp] theorem takePartialFault_st (c : Fault) (s : State) : (takePartialFault c s).st = s.st := rfl
@[simp] theorem takePartialFault_mem (c : Fault) (s : State) : (takePartialFault c s).mem = s.mem := rfl
@[simp] theorem takePartialFault_surf (c : Fault) (s : State) : (takePartialFault c s).surf = s.surf := rfl
@[simp] theorem takePartialFault_keys (c : Fault) (s : State) : (takePartialFault c s).keys = s.keys := rfl
@[simp] theorem takePartialFault_lastKey (c : Fault) (s : State) : (takePartialFault c s).lastKey = s.lastKey := rfl
@[simp] theorem takePartialFault_schedState (c : Fault) (s : State) : (takePartialFault c s).schedState = .paused := rfl
@[simp] theorem takePartialFault_ipf (c : Fault) (s : State) : (takePartialFault c s).ipf = s.ipf := rfl
@[simp] theorem takePartialFault_beep (c : Fault) (s : State) : (takePartialFault c s).beep = s.beep := rfl
@[simp] theorem takePartialFault_frameCount (c : Fault) (s : State) : (takePartialFault c s).frameCount = s.frameCount := rfl
@[simp] theorem takePartialFault_bps (c : Fault) (s : State) : (takePartialFault c s).bps = s.bps := rfl
@[simp] theorem takePartialFault_haltCause (c : Fault) (s : State) : (takePartialFault c s).haltCause = .fault c := rfl
@[simp] theorem takePartialFault_progCount (c : Fault) (s : State) : (takePartialFault c s).progCount = s.progCount := rfl
@[simp] theorem takePartialFault_progBytes (c : Fault) (s : State) : (takePartialFault c s).progBytes = s.progBytes := rfl
@[simp] theorem takePartialFault_params (c : Fault) (s : State) : (takePartialFault c s).params = s.params := rfl
@[simp] theorem takePartialFault_burst (c : Fault) (s : State) : (takePartialFault c s).burst = s.burst := rfl
@[simp] theorem takePartialFault_draws (c : Fault) (s : State) : (takePartialFault c s).draws = s.draws + 1 := rfl
@[simp] theorem takePartialFault_moves (c : Fault) (s : State) : (takePartialFault c s).moves = s.moves := rfl
@[simp] theorem takePartialFault_out (c : Fault) (s : State) :
    (takePartialFault c s).out = .newMessage (.fault c) :: s.out := rfl

/-! ## writeAtI -/

@[simp] theorem writeAtI_v (p : Nat → Bool) (bs : List Byte) (s : State) :
    (writeAtI p bs s).v = s.v := rfl
@[simp] theorem writeAtI_i (p : Nat → Bool) (bs : List Byte) (s : State) :
    (writeAtI p bs s).i = s.i := rfl
@[simp] theorem writeAtI_pc (p : Nat → Bool) (bs : List Byte) (s : State) :
    (writeAtI p bs s).pc = s.pc := rfl
@[simp] theorem writeAtI_stack (p : Nat → Bool) (bs : List Byte) (s : State) :
    (writeAtI p bs s).stack = s.stack := rfl
@[simp] theorem writeAtI_dt (p : Nat → Bool) (bs : List Byte) (s : State) :
    (writeAtI p bs s).dt = s.dt := rfl
@[simp] theorem writeAtI_st (p : Nat → Bool) (bs : List Byte) (s : State) :
    (writeAtI p bs s).st = s.st := rfl
@[simp] theorem writeAtI_mem (p : Nat → Bool) (bs : List Byte) (s : State) :
    (writeAtI p bs s).mem = Memory.writeWhere s.params.font p s.i.toNat bs s.mem := rfl
@[simp] theorem writeAtI_surf (p : Nat → Bool) (bs : List Byte) (s : State) :
    (writeAtI p bs s).surf = s.surf := rfl
@[simp] theorem writeAtI_keys (p : Nat → Bool) (bs : List Byte) (s : State) :
    (writeAtI p bs s).keys = s.keys := rfl
@[simp] theorem writeAtI_lastKey (p : Nat → Bool) (bs : List Byte) (s : State) :
    (writeAtI p bs s).lastKey = s.lastKey := rfl
@[simp] theorem writeAtI_schedState (p : Nat → Bool) (bs : List Byte) (s : State) :
    (writeAtI p bs s).schedState = s.schedState := rfl
@[simp] theorem writeAtI_ipf (p : Nat → Bool) (bs : List Byte) (s : State) :
    (writeAtI p bs s).ipf = s.ipf := rfl
@[simp] theorem writeAtI_beep (p : Nat → Bool) (bs : List Byte) (s : State) :
    (writeAtI p bs s).beep = s.beep := rfl
@[simp] theorem writeAtI_frameCount (p : Nat → Bool) (bs : List Byte) (s : State) :
    (writeAtI p bs s).frameCount = s.frameCount := rfl
@[simp] theorem writeAtI_bps (p : Nat → Bool) (bs : List Byte) (s : State) :
    (writeAtI p bs s).bps = s.bps := rfl
@[simp] theorem writeAtI_haltCause (p : Nat → Bool) (bs : List Byte) (s : State) :
    (writeAtI p bs s).haltCause = s.haltCause := rfl
@[simp] theorem writeAtI_progCount (p : Nat → Bool) (bs : List Byte) (s : State) :
    (writeAtI p bs s).progCount = s.progCount := rfl
@[simp] theorem writeAtI_progBytes (p : Nat → Bool) (bs : List Byte) (s : State) :
    (writeAtI p bs s).progBytes = s.progBytes := rfl
@[simp] theorem writeAtI_params (p : Nat → Bool) (bs : List Byte) (s : State) :
    (writeAtI p bs s).params = s.params := rfl
@[simp] theorem writeAtI_burst (p : Nat → Bool) (bs : List Byte) (s : State) :
    (writeAtI p bs s).burst = s.burst := rfl
@[simp] theorem writeAtI_draws (p : Nat → Bool) (bs : List Byte) (s : State) :
    (writeAtI p bs s).draws = s.draws := rfl
@[simp] theorem writeAtI_moves (p : Nat → Bool) (bs : List Byte) (s : State) :
    (writeAtI p bs s).moves = s.moves := rfl
@[simp] theorem writeAtI_out (p : Nat → Bool) (bs : List Byte) (s : State) :
    (writeAtI p bs s).out = s.out := rfl

/-! ## loadBlock -/

@[simp] theorem loadBlock_i (p : Nat → Bool) (x : Reg) (s : State) : (loadBlock p x s).i = s.i := rfl
@[simp] theorem loadBlock_pc (p : Nat → Bool) (x : Reg) (s : State) : (loadBlock p x s).pc = s.pc := rfl
@[simp] theorem loadBlock_stack (p : Nat → Bool) (x : Reg) (s : State) : (loadBlock p x s).stack = s.stack := rfl
@[simp] theorem loadBlock_dt (p : Nat → Bool) (x : Reg) (s : State) : (loadBlock p x s).dt = s.dt := rfl
@[simp] theorem loadBlock_st (p : Nat → Bool) (x : Reg) (s : State) : (loadBlock p x s).st = s.st := rfl
@[simp] theorem loadBlock_mem (p : Nat → Bool) (x : Reg) (s : State) : (loadBlock p x s).mem = s.mem := rfl
@[simp] theorem loadBlock_surf (p : Nat → Bool) (x : Reg) (s : State) : (loadBlock p x s).surf = s.surf := rfl
@[simp] theorem loadBlock_keys (p : Nat → Bool) (x : Reg) (s : State) : (loadBlock p x s).keys = s.keys := rfl
@[simp] theorem loadBlock_lastKey (p : Nat → Bool) (x : Reg) (s : State) :
    (loadBlock p x s).lastKey = s.lastKey := rfl
@[simp] theorem loadBlock_schedState (p : Nat → Bool) (x : Reg) (s : State) :
    (loadBlock p x s).schedState = s.schedState := rfl
@[simp] theorem loadBlock_ipf (p : Nat → Bool) (x : Reg) (s : State) : (loadBlock p x s).ipf = s.ipf := rfl
@[simp] theorem loadBlock_beep (p : Nat → Bool) (x : Reg) (s : State) : (loadBlock p x s).beep = s.beep := rfl
@[simp] theorem loadBlock_frameCount (p : Nat → Bool) (x : Reg) (s : State) :
    (loadBlock p x s).frameCount = s.frameCount := rfl
@[simp] theorem loadBlock_bps (p : Nat → Bool) (x : Reg) (s : State) : (loadBlock p x s).bps = s.bps := rfl
@[simp] theorem loadBlock_haltCause (p : Nat → Bool) (x : Reg) (s : State) :
    (loadBlock p x s).haltCause = s.haltCause := rfl
@[simp] theorem loadBlock_progCount (p : Nat → Bool) (x : Reg) (s : State) :
    (loadBlock p x s).progCount = s.progCount := rfl
@[simp] theorem loadBlock_progBytes (p : Nat → Bool) (x : Reg) (s : State) :
    (loadBlock p x s).progBytes = s.progBytes := rfl
@[simp] theorem loadBlock_params (p : Nat → Bool) (x : Reg) (s : State) :
    (loadBlock p x s).params = s.params := rfl
@[simp] theorem loadBlock_burst (p : Nat → Bool) (x : Reg) (s : State) : (loadBlock p x s).burst = s.burst := rfl
@[simp] theorem loadBlock_draws (p : Nat → Bool) (x : Reg) (s : State) : (loadBlock p x s).draws = s.draws := rfl
@[simp] theorem loadBlock_moves (p : Nat → Bool) (x : Reg) (s : State) : (loadBlock p x s).moves = s.moves := rfl
@[simp] theorem loadBlock_out (p : Nat → Bool) (x : Reg) (s : State) : (loadBlock p x s).out = s.out := rfl

/-! ## bumpI -/

@[simp] theorem bumpI_v (x : Reg) (s : State) : (bumpI x s).v = s.v := rfl
@[simp] theorem bumpI_i (x : Reg) (s : State) :
    (bumpI x s).i = s.i + BitVec.ofNat 16 (x.val + 1) := rfl
@[simp] theorem bumpI_pc (x : Reg) (s : State) : (bumpI x s).pc = s.pc := rfl
@[simp] theorem bumpI_stack (x : Reg) (s : State) : (bumpI x s).stack = s.stack := rfl
@[simp] theorem bumpI_dt (x : Reg) (s : State) : (bumpI x s).dt = s.dt := rfl
@[simp] theorem bumpI_st (x : Reg) (s : State) : (bumpI x s).st = s.st := rfl
@[simp] theorem bumpI_mem (x : Reg) (s : State) : (bumpI x s).mem = s.mem := rfl
@[simp] theorem bumpI_surf (x : Reg) (s : State) : (bumpI x s).surf = s.surf := rfl
@[simp] theorem bumpI_keys (x : Reg) (s : State) : (bumpI x s).keys = s.keys := rfl
@[simp] theorem bumpI_lastKey (x : Reg) (s : State) : (bumpI x s).lastKey = s.lastKey := rfl
@[simp] theorem bumpI_schedState (x : Reg) (s : State) : (bumpI x s).schedState = s.schedState := rfl
@[simp] theorem bumpI_ipf (x : Reg) (s : State) : (bumpI x s).ipf = s.ipf := rfl
@[simp] theorem bumpI_beep (x : Reg) (s : State) : (bumpI x s).beep = s.beep := rfl
@[simp] theorem bumpI_frameCount (x : Reg) (s : State) : (bumpI x s).frameCount = s.frameCount := rfl
@[simp] theorem bumpI_bps (x : Reg) (s : State) : (bumpI x s).bps = s.bps := rfl
@[simp] theorem bumpI_haltCause (x : Reg) (s : State) : (bumpI x s).haltCause = s.haltCause := rfl
@[simp] theorem bumpI_progCount (x : Reg) (s : State) : (bumpI x s).progCount = s.progCount := rfl
@[simp] theorem bumpI_progBytes (x : Reg) (s : State) : (bumpI x s).progBytes = s.progBytes := rfl
@[simp] theorem bumpI_params (x : Reg) (s : State) : (bumpI x s).params = s.params := rfl
@[simp] theorem bumpI_burst (x : Reg) (s : State) : (bumpI x s).burst = s.burst := rfl
@[simp] theorem bumpI_draws (x : Reg) (s : State) : (bumpI x s).draws = s.draws := rfl
@[simp] theorem bumpI_moves (x : Reg) (s : State) : (bumpI x s).moves = s.moves := rfl
@[simp] theorem bumpI_out (x : Reg) (s : State) : (bumpI x s).out = s.out := rfl

/-! ## commit -/

@[simp] theorem commit_i (x : Reg) (r f : Byte) (s : State) : (commit x r f s).i = s.i := by unfold commit; split <;> rfl
@[simp] theorem commit_pc (x : Reg) (r f : Byte) (s : State) : (commit x r f s).pc = s.pc := by unfold commit; split <;> rfl
@[simp] theorem commit_stack (x : Reg) (r f : Byte) (s : State) : (commit x r f s).stack = s.stack := by unfold commit; split <;> rfl
@[simp] theorem commit_dt (x : Reg) (r f : Byte) (s : State) : (commit x r f s).dt = s.dt := by unfold commit; split <;> rfl
@[simp] theorem commit_st (x : Reg) (r f : Byte) (s : State) : (commit x r f s).st = s.st := by unfold commit; split <;> rfl
@[simp] theorem commit_mem (x : Reg) (r f : Byte) (s : State) : (commit x r f s).mem = s.mem := by unfold commit; split <;> rfl
@[simp] theorem commit_surf (x : Reg) (r f : Byte) (s : State) : (commit x r f s).surf = s.surf := by unfold commit; split <;> rfl
@[simp] theorem commit_keys (x : Reg) (r f : Byte) (s : State) : (commit x r f s).keys = s.keys := by unfold commit; split <;> rfl
@[simp] theorem commit_lastKey (x : Reg) (r f : Byte) (s : State) : (commit x r f s).lastKey = s.lastKey := by unfold commit; split <;> rfl
@[simp] theorem commit_schedState (x : Reg) (r f : Byte) (s : State) : (commit x r f s).schedState = s.schedState := by unfold commit; split <;> rfl
@[simp] theorem commit_ipf (x : Reg) (r f : Byte) (s : State) : (commit x r f s).ipf = s.ipf := by unfold commit; split <;> rfl
@[simp] theorem commit_beep (x : Reg) (r f : Byte) (s : State) : (commit x r f s).beep = s.beep := by unfold commit; split <;> rfl
@[simp] theorem commit_frameCount (x : Reg) (r f : Byte) (s : State) : (commit x r f s).frameCount = s.frameCount := by unfold commit; split <;> rfl
@[simp] theorem commit_bps (x : Reg) (r f : Byte) (s : State) : (commit x r f s).bps = s.bps := by unfold commit; split <;> rfl
@[simp] theorem commit_haltCause (x : Reg) (r f : Byte) (s : State) : (commit x r f s).haltCause = s.haltCause := by unfold commit; split <;> rfl
@[simp] theorem commit_progCount (x : Reg) (r f : Byte) (s : State) : (commit x r f s).progCount = s.progCount := by unfold commit; split <;> rfl
@[simp] theorem commit_progBytes (x : Reg) (r f : Byte) (s : State) : (commit x r f s).progBytes = s.progBytes := by unfold commit; split <;> rfl
@[simp] theorem commit_params (x : Reg) (r f : Byte) (s : State) : (commit x r f s).params = s.params := by unfold commit; split <;> rfl
@[simp] theorem commit_burst (x : Reg) (r f : Byte) (s : State) : (commit x r f s).burst = s.burst := by unfold commit; split <;> rfl
@[simp] theorem commit_draws (x : Reg) (r f : Byte) (s : State) : (commit x r f s).draws = s.draws := by unfold commit; split <;> rfl
@[simp] theorem commit_moves (x : Reg) (r f : Byte) (s : State) : (commit x r f s).moves = s.moves := by unfold commit; split <;> rfl
@[simp] theorem commit_out (x : Reg) (r f : Byte) (s : State) : (commit x r f s).out = s.out := by unfold commit; split <;> rfl

/-! ## Registers through their accessors -/

@[simp] theorem getV_setV_same (x : Reg) (b : Byte) (s : State) : getV x (setV x b s) = b := by
  simp [getV, setV]

theorem getV_setV_other (x r : Reg) (b : Byte) (s : State) (h : r ≠ x) : getV r (setV x b s) = getV r s := by
  have : x.val ≠ r.val := fun e => h (Fin.ext e.symm)
  simp [getV, setV, Vector.getElem_set_ne, this]

theorem getV_setV (x r : Reg) (b : Byte) (s : State) :
    getV r (setV x b s) = if r = x then b else getV r s := by
  split
  · next h => subst h; simp
  · next h => exact getV_setV_other x r b s h

/-- A register reads the same in two states with the same register file. -/
theorem getV_congr {s t : State} (r : Reg) (h : t.v = s.v) : getV r t = getV r s := by simp [getV, h]

/-- A byte reads the same in two states with the same memory and font. -/
theorem readMem_congr {s t : State} (a : Nat) (hm : t.mem = s.mem) (hp : t.params = s.params) :
    readMem t a = readMem s a := by simp [readMem, hm, hp]

end Sys2Proof.Machine
end

