-- ==== Sys2Proof/Laws/Memory.lean ====
section
/-! SUPPORT. The laws of memory: read after write, the canonical form, extensionality, and what a block write does. -/

namespace Sys2Proof.Machine

variable {font : Font} {m : Memory}

/-- The list of addresses rises strictly, whatever the bytes. -/
abbrev Memory.rising (m : Memory) : Prop := m.Pairwise (fun c d => c.1 < d.1)

theorem Memory.read_of_all_gt (a : Nat) (h : ∀ c ∈ m, a < c.1) :
    Memory.read font m a = Memory.background font a := by
  induction m with
  | nil => rfl
  | cons c m ih =>
    obtain ⟨k, b⟩ := c
    have hk : a < k := h (k, b) List.mem_cons_self
    rw [Memory.read, if_neg (by omega)]
    exact ih fun c hc => h c (List.mem_cons_of_mem _ hc)

/-- Reading where a byte was just written gives that byte. -/
theorem Memory.read_write_same (a : Nat) (v : Byte) (hm : Memory.rising m) :
    Memory.read font (Memory.write font a v m) a = v := by
  induction m with
  | nil =>
    unfold Memory.write
    split
    · next h => simp [Memory.read, h]
    · simp [Memory.read]
  | cons c m ih =>
    obtain ⟨k, b⟩ := c
    have hgt : ∀ d ∈ m, k < d.1 := fun d hd => List.rel_of_pairwise_cons hm hd
    have htail : Memory.rising m := hm.of_cons
    unfold Memory.write
    split
    · next h =>
      rw [Memory.read, if_neg (by omega)]
      exact ih htail
    · next h =>
      dsimp only
      split
      · next hv =>
        rw [hv]
        split
        · next hk => exact Memory.read_of_all_gt a fun d hd => hk ▸ hgt d hd
        · next hk =>
          refine Memory.read_of_all_gt a fun d hd => ?_
          rcases List.mem_cons.1 hd with rfl | hd
          · show a < k; omega
          · have := hgt d hd; omega
      · simp [Memory.read]

/-- A write leaves every other address alone. -/
theorem Memory.read_write_other (a a' : Nat) (v : Byte) (h : a' ≠ a) :
    Memory.read font (Memory.write font a v m) a' = Memory.read font m a' := by
  induction m with
  | nil =>
    unfold Memory.write
    split
    · rfl
    · simp [Memory.read, Ne.symm h]
  | cons c m ih =>
    obtain ⟨k, b⟩ := c
    unfold Memory.write
    split
    · simp only [Memory.read, ih]
    · dsimp only
      by_cases hk : k = a
      · subst hk
        split <;> simp [Memory.read, Ne.symm h]
      · split <;> simp [Memory.read, Ne.symm h]

/-- The addresses a write lists are the old ones and the written one. -/
theorem Memory.mem_write (a : Nat) (v : Byte) (c : Host.Cell) (h : c ∈ Memory.write font a v m) :
    (c = (a, v) ∧ v ≠ Memory.background font a) ∨ c ∈ m := by
  induction m with
  | nil =>
    unfold Memory.write at h
    split at h
    · cases h
    · next hv => exact .inl ⟨List.mem_singleton.1 h, hv⟩
  | cons d m ih =>
    obtain ⟨k, b⟩ := d
    unfold Memory.write at h
    split at h
    · rcases List.mem_cons.1 h with rfl | h
      · exact .inr List.mem_cons_self
      · exact (ih h).imp id (List.mem_cons_of_mem _)
    · dsimp only at h
      have hrest : ∀ d, d ∈ (if k = a then m else (k, b) :: m) → d ∈ (k, b) :: m := by
        intro d hd
        split at hd
        · exact List.mem_cons_of_mem _ hd
        · exact hd
      split at h
      · exact .inr (hrest _ h)
      · next hv =>
        rcases List.mem_cons.1 h with rfl | h
        · exact .inl ⟨rfl, hv⟩
        · exact .inr (hrest _ h)

theorem Memory.write_rising (a : Nat) (v : Byte) (hm : Memory.rising m) :
    Memory.rising (Memory.write font a v m) := by
  induction m with
  | nil =>
    unfold Memory.write
    split <;> simp [Memory.rising]
  | cons d m ih =>
    obtain ⟨k, b⟩ := d
    have hgt : ∀ d ∈ m, k < d.1 := fun d hd => List.rel_of_pairwise_cons hm hd
    have htail : Memory.rising m := hm.of_cons
    unfold Memory.write
    split
    · next h =>
      refine List.pairwise_cons.2 ⟨fun c hc => ?_, ih htail⟩
      rcases Memory.mem_write a v c hc with ⟨rfl, -⟩ | hc
      · exact h
      · exact hgt c hc
    · next h =>
      dsimp only
      by_cases hk : k = a
      · subst hk
        simp only [if_true]
        split
        · exact htail
        · exact List.pairwise_cons.2 ⟨hgt, htail⟩
      · simp only [hk, if_false]
        split
        · exact hm
        · refine List.pairwise_cons.2 ⟨fun c hc => ?_, hm⟩
          rcases List.mem_cons.1 hc with rfl | hc
          · show a < k; omega
          · have := hgt c hc; show a < c.1; omega

/-- A write at an existing address keeps the canonical form. -/
theorem Memory.write_wf (a : Nat) (v : Byte) (ha : a < 4096) (hm : Memory.wf font m) :
    Memory.wf font (Memory.write font a v m) := by
  refine ⟨Memory.write_rising a v hm.1, fun c hc => ?_⟩
  rcases Memory.mem_write a v c hc with ⟨rfl, hv⟩ | hc
  · exact ⟨ha, hv⟩
  · exact hm.2 c hc

/-- A block write keeps the canonical form. -/
theorem Memory.writeWhere_wf (pick : Nat → Bool) (a : Nat) (bs : List Byte) (hm : Memory.wf font m) :
    Memory.wf font (Memory.writeWhere font pick a bs m) := by
  induction bs generalizing pick a m with
  | nil => exact hm
  | cons b bs ih =>
    rw [Memory.writeWhere]
    refine ih _ _ ?_
    split
    · next h => exact Memory.write_wf a b h.1 hm
    · exact hm

/-- What an address reads as after a block write: the byte meant for it where that byte was picked and the address
exists, and its old byte else. -/
theorem Memory.read_writeWhere (pick : Nat → Bool) (a : Nat) (bs : List Byte) (a' : Nat) (hm : Memory.rising m) :
    Memory.read font (Memory.writeWhere font pick a bs m) a' =
      if h : a ≤ a' ∧ a' < a + bs.length ∧ a' < 4096 ∧ pick (a' - a) then bs[a' - a]
      else Memory.read font m a' := by
  induction bs generalizing pick a m with
  | nil =>
    rw [dif_neg (fun h => by have := h.2.1; simp at this; omega)]
    rfl
  | cons b bs ih =>
    have hm' : Memory.rising (if a < 4096 ∧ pick 0 then Memory.write font a b m else m) := by
      split
      · exact Memory.write_rising a b hm
      · exact hm
    rw [Memory.writeWhere, ih _ _ hm']
    by_cases hlt : a + 1 ≤ a'
    · have e : a' - a = (a' - (a + 1)) + 1 := by omega
      have hread : Memory.read font (if a < 4096 ∧ pick 0 then Memory.write font a b m else m) a' =
          Memory.read font m a' := by
        split
        · exact Memory.read_write_other a a' b (by omega)
        · rfl
      rw [hread]
      by_cases hc : a' < a + 1 + bs.length ∧ a' < 4096 ∧ pick (a' - (a + 1) + 1)
      · rw [dif_pos ⟨hlt, hc.1, hc.2.1, hc.2.2⟩,
          dif_pos ⟨by omega, by simp; omega, hc.2.1, by rw [e]; exact hc.2.2⟩]
        simp only [e, List.getElem_cons_succ]
      · rw [dif_neg (fun h => hc ⟨h.2.1, h.2.2.1, h.2.2.2⟩), dif_neg]
        rintro ⟨-, h2, h3, h4⟩
        rw [e] at h4
        exact hc ⟨by simp at h2; omega, h3, h4⟩
    · rw [dif_neg (fun h => hlt h.1)]
      by_cases heq : a' = a
      · subst heq
        by_cases hp : a' < 4096 ∧ pick 0
        · rw [if_pos hp, Memory.read_write_same _ _ hm,
            dif_pos ⟨le_refl _, by simp, hp.1, by simpa using hp.2⟩]
          simp
        · rw [if_neg hp, dif_neg]
          rintro ⟨-, -, h3, h4⟩
          exact hp ⟨h3, by simpa using h4⟩
      · rw [dif_neg (fun h => by have := h.1; omega)]
        split
        · exact Memory.read_write_other a a' b heq
        · rfl

/-- Where nothing is listed below or at `a`, the head of a canonical list decides what `a` reads as. -/
theorem Memory.read_head_ne (k : Nat) (b : Byte) (hm : Memory.wf font ((k, b) :: m)) :
    Memory.read font ((k, b) :: m) k ≠ Memory.background font k := by
  simpa [Memory.read] using (hm.2 (k, b) List.mem_cons_self).2

/-- Two canonical memories that read alike are equal. -/
theorem Memory.ext_of_wf {m' : Memory} (hm : Memory.wf font m) (hm' : Memory.wf font m')
    (h : ∀ a, Memory.read font m a = Memory.read font m' a) : m = m' := by
  induction m generalizing m' with
  | nil =>
    cases m' with
    | nil => rfl
    | cons d m' => exact absurd (h d.1).symm (Memory.read_head_ne d.1 d.2 hm')
  | cons c m ih =>
    cases m' with
    | nil => exact absurd (h c.1) (Memory.read_head_ne c.1 c.2 hm)
    | cons d m' =>
      obtain ⟨k, b⟩ := c
      obtain ⟨k', b'⟩ := d
      have hg : ∀ c ∈ m, k < c.1 := fun d hd => List.rel_of_pairwise_cons hm.1 hd
      have hg' : ∀ c ∈ m', k' < c.1 := fun d hd => List.rel_of_pairwise_cons hm'.1 hd
      have hk : k = k' := by
        rcases Nat.lt_trichotomy k k' with hlt | heq | hgt
        · refine absurd ?_ (Memory.read_head_ne k b hm)
          rw [h k]
          refine Memory.read_of_all_gt k fun c hc => ?_
          rcases List.mem_cons.1 hc with rfl | hc
          · exact hlt
          · have := hg' c hc; omega
        · exact heq
        · refine absurd ?_ (Memory.read_head_ne k' b' hm')
          rw [← h k']
          refine Memory.read_of_all_gt k' fun c hc => ?_
          rcases List.mem_cons.1 hc with rfl | hc
          · exact hgt
          · have := hg c hc; omega
      subst hk
      have hb : b = b' := by simpa [Memory.read] using h k
      subst hb
      have hwf : Memory.wf font m := ⟨hm.1.of_cons, fun c hc => hm.2 c (List.mem_cons_of_mem _ hc)⟩
      have hwf' : Memory.wf font m' := ⟨hm'.1.of_cons, fun c hc => hm'.2 c (List.mem_cons_of_mem _ hc)⟩
      rw [ih hwf hwf' fun a => ?_]
      by_cases ha : k = a
      · subst ha
        rw [Memory.read_of_all_gt k hg, Memory.read_of_all_gt k hg']
      · simpa [Memory.read, ha] using h a

/-- The range check of R53, byte by byte. -/
theorem spanInRange_iff (base n : Nat) : spanInRange base n ↔ ∀ k, k < n → base + k < 4096 := by
  constructor
  · rintro (h | h) k hk <;> omega
  · intro h
    by_cases hn : n = 0
    · exact .inl hn
    · have := h (n - 1) (by omega)
      exact .inr (by omega)

end Sys2Proof.Machine
end

