-- ==== Sys2Proof/Laws/Surface.lean ====
section
/-! SUPPORT. The laws of the display surface, and the sprite loops of DRW in closed form. -/

namespace Sys2Proof.Machine

@[simp] theorem getPixel_setPixel_same (g : Surface) (x y : Nat) (b : Bool) (h : x < 64 ∧ y < 32) :
    getPixel (setPixel g x y b) x y = b := by
  simp [getPixel, setPixel, h]

theorem getPixel_setPixel_other (g : Surface) (x y x' y' : Nat) (b : Bool) (h : ¬(x' = x ∧ y' = y)) :
    getPixel (setPixel g x y b) x' y' = getPixel g x' y' := by
  unfold getPixel setPixel
  split
  · next hin' =>
    split
    · next hin =>
      by_cases hx : x' = x
      · subst hx
        have hy : y ≠ y' := fun e => h ⟨rfl, e.symm⟩
        simp [hy]
      · simp [Vector.getElem_set_ne, Ne.symm hx]
    · rfl
  · rfl

@[simp] theorem getPixel_blank (x y : Nat) : getPixel blankSurface x y = false := by
  simp [getPixel, blankSurface]

theorem getPixel_outside (g : Surface) (x y : Nat) (h : ¬(x < 64 ∧ y < 32)) : getPixel g x y = false := by
  simp [getPixel, h]

/-- Surfaces that agree on every pixel are equal. -/
theorem surface_ext (g h : Surface) (e : ∀ x y, x < 64 → y < 32 → getPixel g x y = getPixel h x y) : g = h := by
  refine Vector.ext fun x hx => Vector.ext fun y hy => ?_
  simpa [getPixel, hx, hy] using e x y hx hy

/-- Whether a bit row whose first bit stands at column `x0` covers column `x`. -/
def bitAt (bits : List Bool) (x0 x : Nat) : Bool := decide (x0 ≤ x) && (bits[x - x0]?).getD false

theorem bitAt_cons (on : Bool) (bits : List Bool) (x0 x : Nat) :
    bitAt (on :: bits) x0 x = ((decide (x = x0) && on) || bitAt bits (x0 + 1) x) := by
  unfold bitAt
  rcases Nat.lt_trichotomy x x0 with h | rfl | h
  · simp [show ¬ x0 ≤ x by omega, show x ≠ x0 by omega, show ¬ x0 + 1 ≤ x by omega]
  · simp
  · have e : x - x0 = (x - (x0 + 1)) + 1 := by omega
    simp [show x0 ≤ x by omega, show x ≠ x0 by omega, show x0 + 1 ≤ x by omega, e]

theorem bitAt_start (bits : List Bool) (x0 : Nat) : bitAt bits (x0 + 1) x0 = false := by
  simp [bitAt]

/-- One row of a sprite, in closed form: each covered pixel inside the grid is toggled. -/
theorem getPixel_plotBits (bits : List Bool) (x0 y : Nat) (p : Surface × Bool) (x' y' : Nat) (hy : y < 32) :
    getPixel (plotBits bits x0 y p).1 x' y' =
      (getPixel p.1 x' y' ^^ (decide (y' = y) && decide (x' < 64) && bitAt bits x0 x')) := by
  induction bits generalizing x0 p with
  | nil => simp [plotBits, bitAt]
  | cons on bits ih =>
    rw [plotBits]
    split
    · next h =>
      have : (decide (x' < 64) && bitAt (on :: bits) x0 x') = false := by
        by_cases hx : x' < 64
        · simp [bitAt, show ¬ x0 ≤ x' by omega]
        · simp [hx]
      rw [Bool.and_assoc, this]
      simp
    · next h =>
      rw [ih, bitAt_cons]
      by_cases hxy : x' = x0 ∧ y' = y
      · obtain ⟨rfl, rfl⟩ := hxy
        rw [bitAt_start]
        cases on
        · simp
        · simp [getPixel_setPixel_same, show x' < 64 by omega, hy]
      · have hc : getPixel (if on then (setPixel p.1 x0 y (!getPixel p.1 x0 y), p.2 || getPixel p.1 x0 y)
            else p).1 x' y' = getPixel p.1 x' y' := by
          split
          · exact getPixel_setPixel_other _ _ _ _ _ _ hxy
          · rfl
        rw [hc]
        by_cases hy' : y' = y
        · have : x' ≠ x0 := fun e => hxy ⟨e, hy'⟩
          simp [this]
        · simp [hy']

/-- The collision flag of one row: set where a covered pixel inside the grid was set before. -/
theorem collision_plotBits (bits : List Bool) (x0 y : Nat) (p : Surface × Bool) :
    (plotBits bits x0 y p).2 = true ↔
      p.2 = true ∨ ∃ x, x < 64 ∧ bitAt bits x0 x = true ∧ getPixel p.1 x y = true := by
  induction bits generalizing x0 p with
  | nil => simp [plotBits, bitAt]
  | cons on bits ih =>
    rw [plotBits]
    split
    · next h =>
      constructor
      · exact .inl
      · rintro (hp | ⟨x, hx, hb, -⟩)
        · exact hp
        · simp [bitAt, show ¬ x0 ≤ x by omega] at hb
    · next h =>
      rw [ih]
      have hsame : ∀ x, x0 + 1 ≤ x →
          getPixel (if on then (setPixel p.1 x0 y (!getPixel p.1 x0 y), p.2 || getPixel p.1 x0 y) else p).1 x y =
            getPixel p.1 x y := by
        intro x hx
        split
        · exact getPixel_setPixel_other _ _ _ _ _ _ (by omega)
        · rfl
      have hge : ∀ x, bitAt bits (x0 + 1) x = true → x0 + 1 ≤ x := by
        intro x hb
        by_contra hlt
        simp [bitAt, hlt] at hb
      constructor
      · rintro (hp | ⟨x, hx, hb, hg⟩)
        · cases on
          · exact .inl (by simpa using hp)
          · simp only [if_true, Bool.or_eq_true] at hp
            rcases hp with hp | hp
            · exact .inl hp
            · exact .inr ⟨x0, by omega, by simp [bitAt_cons], hp⟩
        · exact .inr ⟨x, hx, by simp [bitAt_cons, hb], by rw [hsame x (hge x hb)] at hg; exact hg⟩
      · rintro (hp | ⟨x, hx, hb, hg⟩)
        · left
          cases on <;> simp [hp]
        · rw [bitAt_cons, Bool.or_eq_true, Bool.and_eq_true, decide_eq_true_iff] at hb
          rcases hb with ⟨rfl, rfl⟩ | hb
          · exact .inl (by simp [hg])
          · exact .inr ⟨x, hx, hb, by rw [hsame x (hge x hb)]; exact hg⟩

/-- Whether the sprite `rows`, its top left at (x0, y0), covers the point (x, y). -/
def spriteAt (rows : List Byte) (x0 y0 x y : Nat) : Bool :=
  decide (y0 ≤ y) && (match rows[y - y0]? with
    | some row => bitAt (spriteBits row) x0 x
    | none => false)

theorem spriteAt_cons (row : Byte) (rows : List Byte) (x0 y0 x y : Nat) :
    spriteAt (row :: rows) x0 y0 x y =
      ((decide (y = y0) && bitAt (spriteBits row) x0 x) || spriteAt rows x0 (y0 + 1) x y) := by
  unfold spriteAt
  rcases Nat.lt_trichotomy y y0 with h | rfl | h
  · simp [show ¬ y0 ≤ y by omega, show y ≠ y0 by omega, show ¬ y0 + 1 ≤ y by omega]
  · simp
  · have e : y - y0 = (y - (y0 + 1)) + 1 := by omega
    simp [show y0 ≤ y by omega, show y ≠ y0 by omega, show y0 + 1 ≤ y by omega, e]

theorem spriteAt_above (rows : List Byte) (x0 y0 x y : Nat) (h : y < y0) : spriteAt rows x0 y0 x y = false := by
  simp [spriteAt, show ¬ y0 ≤ y by omega]

/-- A covered column lies among the eight from the start column on. -/
theorem bitAt_spriteBits (row : Byte) (x0 x : Nat) :
    bitAt (spriteBits row) x0 x = (decide (x0 ≤ x) && decide (x < x0 + 8) && row.getLsbD (7 - (x - x0))) := by
  unfold bitAt spriteBits
  by_cases h : x0 ≤ x
  · by_cases h8 : x < x0 + 8
    · simp [h, h8, show x - x0 < 8 by omega]
    · simp [h, h8, show ¬ x - x0 < 8 by omega]
  · simp [h]

/-- A whole sprite, in closed form: each covered pixel inside the grid is toggled, each other one kept (R151). -/
theorem getPixel_plotRows (rows : List Byte) (x0 y0 : Nat) (p : Surface × Bool) (x y : Nat) :
    getPixel (plotRows rows x0 y0 p).1 x y =
      (getPixel p.1 x y ^^ (decide (x < 64) && decide (y < 32) && spriteAt rows x0 y0 x y)) := by
  induction rows generalizing y0 p with
  | nil => simp [plotRows, spriteAt]
  | cons row rows ih =>
    rw [plotRows]
    split
    · next h =>
      by_cases hy : y < 32
      · simp [spriteAt, show ¬ y0 ≤ y by omega]
      · simp [hy]
    · next h =>
      rw [ih, getPixel_plotBits _ _ _ _ _ _ (by omega), spriteAt_cons]
      by_cases hy : y = y0
      · subst hy
        rw [spriteAt_above rows x0 (y + 1) x y (by omega)]
        simp [show y < 32 by omega]
      · simp [hy]

/-- The collision flag of a whole sprite: set where a covered pixel inside the grid was set before (R152). -/
theorem collision_plotRows (rows : List Byte) (x0 y0 : Nat) (p : Surface × Bool) :
    (plotRows rows x0 y0 p).2 = true ↔
      p.2 = true ∨ ∃ x y, x < 64 ∧ y < 32 ∧ spriteAt rows x0 y0 x y = true ∧ getPixel p.1 x y = true := by
  induction rows generalizing y0 p with
  | nil => simp [plotRows, spriteAt]
  | cons row rows ih =>
    rw [plotRows]
    split
    · next h =>
      constructor
      · exact .inl
      · rintro (hp | ⟨x, y, -, hy, hb, -⟩)
        · exact hp
        · simp [spriteAt, show ¬ y0 ≤ y by omega] at hb
    · next h =>
      rw [ih, collision_plotBits]
      have hbelow : ∀ x y, spriteAt rows x0 (y0 + 1) x y = true → y ≠ y0 := by
        rintro x y hb rfl
        simp [spriteAt_above] at hb
      constructor
      · rintro ((hp | ⟨x, hx, hb, hg⟩) | ⟨x, y, hx, hy, hb, hg⟩)
        · exact .inl hp
        · exact .inr ⟨x, y0, hx, by omega, by simp [spriteAt_cons, hb], hg⟩
        · rw [getPixel_plotBits _ _ _ _ _ _ (by omega)] at hg
          exact .inr ⟨x, y, hx, hy, by simp [spriteAt_cons, hb], by simpa [hbelow x y hb] using hg⟩
      · rintro (hp | ⟨x, y, hx, hy, hb, hg⟩)
        · exact .inl (.inl hp)
        · rw [spriteAt_cons, Bool.or_eq_true, Bool.and_eq_true, decide_eq_true_iff] at hb
          rcases hb with ⟨rfl, hb⟩ | hb
          · exact .inl (.inr ⟨x, hx, hb, hg⟩)
          · refine .inr ⟨x, y, hx, hy, hb, ?_⟩
            rw [getPixel_plotBits _ _ _ _ _ _ (by omega)]
            simp [hbelow x y hb, hg]

end Sys2Proof.Machine
end

