-- ==== Sys2Proof/Laws/Ops.lean ====
section
/-! SUPPORT. For each shared operation, what it can do, said once: registers, blocks at I, result and flag, DRW's
start and its sprite, faults. -/

namespace Sys2Proof.Machine

/-! ## Reading through an update that touches neither registers nor memory -/

@[simp] theorem getV_advance (r : Reg) (s : State) : getV r (advance s) = getV r s := rfl
@[simp] theorem getV_bumpI (r x : Reg) (s : State) : getV r (bumpI x s) = getV r s := rfl
@[simp] theorem getV_setI (r : Reg) (w : Word) (s : State) : getV r (setI w s) = getV r s := rfl
@[simp] theorem getV_writeAtI (r : Reg) (pick : Nat → Bool) (bs : List Byte) (s : State) :
    getV r (writeAtI pick bs s) = getV r s := rfl
@[simp] theorem getV_takeFault (r : Reg) (c : Fault) (s : State) : getV r (takeFault c s) = getV r s := rfl
@[simp] theorem getV_takePartialFault (r : Reg) (c : Fault) (s : State) :
    getV r (takePartialFault c s) = getV r s := rfl
@[simp] theorem readMem_advance (a : Nat) (s : State) : readMem (advance s) a = readMem s a := rfl
@[simp] theorem readMem_bumpI (a : Nat) (x : Reg) (s : State) : readMem (bumpI x s) a = readMem s a := rfl
@[simp] theorem readMem_setV (a : Nat) (x : Reg) (b : Byte) (s : State) :
    readMem (setV x b s) a = readMem s a := rfl
@[simp] theorem readMem_loadBlock (a : Nat) (pick : Nat → Bool) (x : Reg) (s : State) :
    readMem (loadBlock pick x s) a = readMem s a := rfl
@[simp] theorem readMem_takeFault (a : Nat) (c : Fault) (s : State) :
    readMem (takeFault c s) a = readMem s a := rfl
@[simp] theorem readMem_takePartialFault (a : Nat) (c : Fault) (s : State) :
    readMem (takePartialFault c s) a = readMem s a := rfl

/-! ## The block at I -/

theorem readMem_writeAtI (pick : Nat → Bool) (bs : List Byte) (s : State) (hm : Memory.wf s.params.font s.mem)
    (a : Nat) :
    readMem (writeAtI pick bs s) a =
      if h : s.i.toNat ≤ a ∧ a < s.i.toNat + bs.length ∧ a < 4096 ∧ pick (a - s.i.toNat) then bs[a - s.i.toNat]
      else readMem s a :=
  Memory.read_writeWhere pick _ bs a hm.1

@[simp] theorem bcdDigits_length (x : Reg) (s : State) : (bcdDigits x s).length = 3 := rfl

@[simp] theorem regBlock_length (x : Reg) (s : State) : (regBlock x s).length = x.val + 1 := by
  have := x.isLt
  simp only [regBlock, List.length_take, Vector.length_toList]
  omega

theorem regBlock_getElem (x : Reg) (s : State) (k : Nat) (h : k < (regBlock x s).length) (hk : k < 16) :
    (regBlock x s)[k] = getV ⟨k, hk⟩ s := by
  simp [regBlock, getV]

theorem getV_loadBlock (pick : Nat → Bool) (x r : Reg) (s : State) :
    getV r (loadBlock pick x s) =
      if r.val ≤ x.val ∧ s.i.toNat + r.val < 4096 ∧ pick r.val then readMem s (s.i.toNat + r.val)
      else getV r s := by
  simp [getV, loadBlock]

theorem readSpan_some (n : Nat) (s : State) (h : spanInRange s.i.toNat n) :
    readSpan n s = some ((List.range n).map fun k => readMem s (s.i.toNat + k)) := if_pos h

theorem readSpan_none (n : Nat) (s : State) (h : ¬spanInRange s.i.toNat n) : readSpan n s = none := if_neg h

/-! ## Result and flag (R123) -/

theorem resultAndFlag_commit (x : Reg) (r f : Byte) (s : State) :
    ResultAndFlag x r f s (advance (commit x r f s)) := by
  unfold commit
  refine ⟨by split <;> rfl, ⟨by split <;> rfl, fun q hq => ?_, fun a => by split <;> rfl⟩, fun hx => ?_, ?_⟩
  · simp only [List.mem_cons, List.not_mem_nil, or_false, not_or] at hq
    split <;> simp [getV_setV, hq]
  · split <;> simp [getV_setV, hx, Ne.symm hx]
  · rintro rfl
    split <;> simp [*]

/-! ## DRW's start and sprite -/

theorem drwStart_eq (x y : Reg) (s : State) : drwStart x y s = (drawOrigin s x 64, drawOrigin s y 32) := by
  unfold drwStart drawOrigin
  cases s.params.drwCoord
  · simp only [getV_setV, true_and]
    congr 1 <;> split <;> simp
  · simp

/-- The sprite at I as the rows that DRW reads. -/
theorem spriteAt_readSpan (s : State) (n x0 y0 x y : Nat) :
    spriteAt ((List.range n).map fun k => readMem s (s.i.toNat + k)) x0 y0 x y = spriteCovers s n x0 y0 x y := by
  unfold spriteAt spriteCovers
  by_cases h : y0 ≤ y
  · by_cases h' : y < y0 + n
    · simp [h, h', show y - y0 < n by omega, bitAt_spriteBits, Bool.and_assoc]
    · simp [h, h', show n ≤ y - y0 by omega]
  · simp [h]

/-! ## Faults and events -/

theorem takeFault_eq (c : Fault) (s : State) : takeFault c s = FaultState c s := rfl

theorem emit_eq (o : Output) (s : State) : emit o s = { s with out := o :: s.out } := rfl

end Sys2Proof.Machine
end

