-- ==== Sys2Proof/Laws/PerInstr.lean ====
section
/-! SUPPORT. Per instruction: its encoding matches its own row of R88, `(w & mask) == match` (R81). -/

namespace Sys2Proof.Laws.RowPattern

/-- The word of `i` matches the row of `i`. -/
abbrev Statement (i : Instr) : Prop := encode i &&& (rowPattern i).2 = (rowPattern i).1

theorem encodeA_row (op : Nat) (h : op < 16) (nnn : Addr12) :
    encodeA op nnn &&& 0xF000 = BitVec.ofNat 16 (op * 4096) := by
  rw [and_F000, show (encodeA op nnn).toNat / 4096 = op from fieldOp_encodeA op nnn h]

theorem encodeXNN_row (op : Nat) (h : op < 16) (x : Reg) (nn : Byte) :
    encodeXNN op x nn &&& 0xF000 = BitVec.ofNat 16 (op * 4096) := by
  rw [and_F000, show (encodeXNN op x nn).toNat / 4096 = op from fieldOp_encodeXNN op x nn h]

theorem encodeXYN_row (op : Nat) (h : op < 16) (x y n : Reg) :
    encodeXYN op x y n &&& 0xF000 = BitVec.ofNat 16 (op * 4096) := by
  rw [and_F000, show (encodeXYN op x y n).toNat / 4096 = op from fieldOp_encodeXYN op x y n h]

theorem encodeXY_row (op : Nat) (f : Reg) (h : op < 16) (x y : Reg) :
    encodeXYN op x y f &&& 0xF00F = BitVec.ofNat 16 (op * 4096 + f.val) := by
  rw [and_F00F, show (encodeXYN op x y f).toNat / 4096 = op from fieldOp_encodeXYN op x y f h,
    show (encodeXYN op x y f).toNat % 16 = f.val from congrArg Fin.val (fieldN_encodeXYN op x y f)]

theorem encodeX_row (op : Nat) (f : Byte) (h : op < 16) (x : Reg) :
    encodeXNN op x f &&& 0xF0FF = BitVec.ofNat 16 (op * 4096 + f.toNat) := by
  have hf : (encodeXNN op x f).toNat % 256 = f.toNat := by
    have := congrArg BitVec.toNat (fieldNN_encodeXNN op x f)
    simpa only [fieldNN, BitVec.toNat_ofNat] using this
  rw [and_F0FF, show (encodeXNN op x f).toNat / 4096 = op from fieldOp_encodeXNN op x f h, hf]

theorem sys (nnn : Addr12) : Statement (.sys nnn) := encodeA_row 0x0 (by decide) nnn
theorem cls : Statement .cls := by decide
theorem ret : Statement .ret := by decide
theorem jp (nnn : Addr12) : Statement (.jp nnn) := encodeA_row 0x1 (by decide) nnn
theorem call (nnn : Addr12) : Statement (.call nnn) := encodeA_row 0x2 (by decide) nnn
theorem seImm (x : Reg) (nn : Byte) : Statement (.seImm x nn) := encodeXNN_row 0x3 (by decide) x nn
theorem sneImm (x : Reg) (nn : Byte) : Statement (.sneImm x nn) := encodeXNN_row 0x4 (by decide) x nn
theorem seReg (x y : Reg) : Statement (.seReg x y) := encodeXY_row 0x5 0x0 (by decide) x y
theorem ldImm (x : Reg) (nn : Byte) : Statement (.ldImm x nn) := encodeXNN_row 0x6 (by decide) x nn
theorem addImm (x : Reg) (nn : Byte) : Statement (.addImm x nn) := encodeXNN_row 0x7 (by decide) x nn
theorem ldReg (x y : Reg) : Statement (.ldReg x y) := encodeXY_row 0x8 0x0 (by decide) x y
theorem orReg (x y : Reg) : Statement (.orReg x y) := encodeXY_row 0x8 0x1 (by decide) x y
theorem andReg (x y : Reg) : Statement (.andReg x y) := encodeXY_row 0x8 0x2 (by decide) x y
theorem xorReg (x y : Reg) : Statement (.xorReg x y) := encodeXY_row 0x8 0x3 (by decide) x y
theorem addReg (x y : Reg) : Statement (.addReg x y) := encodeXY_row 0x8 0x4 (by decide) x y
theorem subReg (x y : Reg) : Statement (.subReg x y) := encodeXY_row 0x8 0x5 (by decide) x y
theorem shr (x y : Reg) : Statement (.shr x y) := encodeXY_row 0x8 0x6 (by decide) x y
theorem subn (x y : Reg) : Statement (.subn x y) := encodeXY_row 0x8 0x7 (by decide) x y
theorem shl (x y : Reg) : Statement (.shl x y) := encodeXY_row 0x8 0xe (by decide) x y
theorem sneReg (x y : Reg) : Statement (.sneReg x y) := encodeXY_row 0x9 0x0 (by decide) x y
theorem ldI (nnn : Addr12) : Statement (.ldI nnn) := encodeA_row 0xa (by decide) nnn
theorem jpV0 (nnn : Addr12) : Statement (.jpV0 nnn) := encodeA_row 0xb (by decide) nnn
theorem rnd (x : Reg) (nn : Byte) : Statement (.rnd x nn) := encodeXNN_row 0xc (by decide) x nn
theorem drw (x y n : Reg) : Statement (.drw x y n) := encodeXYN_row 0xD (by decide) x y n
theorem skp (x : Reg) : Statement (.skp x) := encodeX_row 0xe 0x9e (by decide) x
theorem sknp (x : Reg) : Statement (.sknp x) := encodeX_row 0xe 0xa1 (by decide) x
theorem ldVxDt (x : Reg) : Statement (.ldVxDt x) := encodeX_row 0xf 0x7 (by decide) x
theorem ldVxK (x : Reg) : Statement (.ldVxK x) := encodeX_row 0xf 0xa (by decide) x
theorem ldDtVx (x : Reg) : Statement (.ldDtVx x) := encodeX_row 0xf 0x15 (by decide) x
theorem ldStVx (x : Reg) : Statement (.ldStVx x) := encodeX_row 0xf 0x18 (by decide) x
theorem addI (x : Reg) : Statement (.addI x) := encodeX_row 0xf 0x1e (by decide) x
theorem ldF (x : Reg) : Statement (.ldF x) := encodeX_row 0xf 0x29 (by decide) x
theorem bcd (x : Reg) : Statement (.bcd x) := encodeX_row 0xf 0x33 (by decide) x
theorem stBlock (x : Reg) : Statement (.stBlock x) := encodeX_row 0xf 0x55 (by decide) x
theorem ldBlock (x : Reg) : Statement (.ldBlock x) := encodeX_row 0xf 0x65 (by decide) x

end Sys2Proof.Laws.RowPattern
end

