-- ==== Sys2Proof/Laws/Unit.lean ====
section
/-! SUPPORT. The breakpoint table, the instruction unit, the frame end and whose move is next. -/

namespace Sys2Proof.Machine

/-! ## The breakpoint table -/

theorem BpTable.find_none (t : BpTable) (a : Nat) : BpTable.find t a = none ↔ ∀ e ∈ t, e.addr ≠ a := by
  simp [BpTable.find]

theorem BpTable.find_mem (t : BpTable) (a : Nat) (e : BpEntry) (h : BpTable.find t a = some e) :
    e ∈ t ∧ e.addr = a :=
  ⟨List.mem_of_find?_eq_some h, by simpa using List.find?_some h⟩

/-- A table holds at most one entry per address. -/
theorem BpTable.eq_of_addr {t : BpTable} (ht : BpTable.wf t) {e f : BpEntry} (he : e ∈ t) (hf : f ∈ t)
    (h : e.addr = f.addr) : e = f := by
  induction t with
  | nil => cases he
  | cons d t ih =>
    have hgt : ∀ c ∈ t, d.addr < c.addr := fun c hc => List.rel_of_pairwise_cons ht.1 hc
    rcases List.mem_cons.1 he with he | he <;> rcases List.mem_cons.1 hf with hf | hf
    · rw [he, hf]
    · have := hgt f hf; subst he; omega
    · have := hgt e he; subst hf; omega
    · exact ih ⟨ht.1.of_cons, fun c hc => ht.2 c (List.mem_cons_of_mem _ hc)⟩ he hf

theorem BpTable.find_of_mem {t : BpTable} (ht : BpTable.wf t) {e : BpEntry} (he : e ∈ t) :
    BpTable.find t e.addr = some e := by
  rcases h : BpTable.find t e.addr with _ | f
  · exact absurd rfl ((BpTable.find_none t e.addr).1 h e he)
  · have := BpTable.find_mem t _ f h
    rw [BpTable.eq_of_addr ht this.1 he this.2]

theorem BpTable.mem_put (a hits : Nat) (active : Bool) (t : BpTable) (e : BpEntry) :
    e ∈ BpTable.put a hits active t ↔
      (e.addr ≠ a ∧ e ∈ t) ∨ (e = ⟨a, hits, active⟩ ∧ ∃ f ∈ t, f.addr = a) := by
  simp only [BpTable.put, List.mem_map]
  constructor
  · rintro ⟨f, hf, rfl⟩
    split
    · next h => exact .inr ⟨rfl, f, hf, h⟩
    · next h => exact .inl ⟨h, hf⟩
  · rintro (⟨h, he⟩ | ⟨rfl, f, hf, h⟩)
    · exact ⟨e, he, if_neg h⟩
    · exact ⟨f, hf, if_pos h⟩

theorem BpTable.put_wf (a hits : Nat) (active : Bool) {t : BpTable} (ht : BpTable.wf t) :
    BpTable.wf (BpTable.put a hits active t) := by
  have haddr : ∀ e : BpEntry, (if e.addr = a then ⟨a, hits, active⟩ else e : BpEntry).addr = e.addr := by
    intro e
    split
    · next h => exact h.symm
    · rfl
  refine ⟨List.pairwise_map.2 (ht.1.imp fun h => by rw [haddr, haddr]; exact h), fun e he => ?_⟩
  obtain ⟨f, hf, rfl⟩ := List.mem_map.1 he
  rw [haddr]
  exact ht.2 f hf

theorem BpTable.mem_insert (a : Nat) (t : BpTable) (e : BpEntry) :
    e ∈ BpTable.insert a t ↔ e = ⟨a, 0, false⟩ ∨ e ∈ t := by
  induction t with
  | nil => simp [BpTable.insert]
  | cons d t ih =>
    unfold BpTable.insert
    split
    · simp only [List.mem_cons, ih]; tauto
    · simp only [List.mem_cons]

theorem BpTable.insert_wf (a : Nat) {t : BpTable} (ht : BpTable.wf t) (hnew : ∀ e ∈ t, e.addr ≠ a)
    (ha : a % 2 = 0 ∧ 0x200 ≤ a ∧ a < 65536) : BpTable.wf (BpTable.insert a t) := by
  refine ⟨?_, fun e he => ?_⟩
  · replace ht := ht.1
    induction t with
    | nil => simp [BpTable.insert]
    | cons d t ih =>
      have hgt : ∀ c ∈ t, d.addr < c.addr := fun c hc => List.rel_of_pairwise_cons ht hc
      have hd := hnew d List.mem_cons_self
      unfold BpTable.insert
      split
      · refine List.pairwise_cons.2 ⟨fun c hc => ?_, ih (fun e he => hnew e (List.mem_cons_of_mem _ he)) ht.of_cons⟩
        rcases (BpTable.mem_insert a t c).1 hc with rfl | hc
        · assumption
        · exact hgt c hc
      · refine List.pairwise_cons.2 ⟨fun c hc => ?_, ht⟩
        rcases List.mem_cons.1 hc with rfl | hc
        · show a < c.addr; omega
        · have := hgt c hc; show a < c.addr; omega
  · rcases (BpTable.mem_insert a t e).1 he with rfl | he
    · exact ha
    · exact ht.2 e he

theorem BpTable.mem_erase (a : Nat) (t : BpTable) (e : BpEntry) :
    e ∈ BpTable.erase a t ↔ e ∈ t ∧ e.addr ≠ a := by
  simp [BpTable.erase]

theorem BpTable.erase_wf (a : Nat) {t : BpTable} (ht : BpTable.wf t) : BpTable.wf (BpTable.erase a t) :=
  ⟨ht.1.filter _, fun e he => ht.2 e ((BpTable.mem_erase a t e).1 he).1⟩

/-! ## The unit (R171, R172) -/

theorem fetchWord_eq (s : State) : fetchWord s = wordAtPc s := rfl

theorem breakpointCheck_none (s : State) (h : NoBreakpointAtPc s) : breakpointCheck s = (false, s) := by
  unfold breakpointCheck
  rw [(BpTable.find_none _ _).2 h]

theorem breakpointCheck_active (s : State) (hits : Nat) (hw : BpTable.wf s.bps)
    (h : ⟨s.pc.toNat, hits, true⟩ ∈ s.bps) :
    breakpointCheck s = (false, { s with bps := BpTable.put s.pc.toNat hits false s.bps }) := by
  unfold breakpointCheck
  rw [BpTable.find_of_mem hw h]
  rfl

theorem breakpointCheck_inactive (s : State) (hits : Nat) (hw : BpTable.wf s.bps)
    (h : ⟨s.pc.toNat, hits, false⟩ ∈ s.bps) :
    breakpointCheck s = (true, emit (.breakpointHit s.pc.toNat)
      { s with bps := BpTable.put s.pc.toNat (hits + 1) true s.bps }) := by
  unfold breakpointCheck
  rw [BpTable.find_of_mem hw h]
  rfl

/-- The check changes the table and the event log, and nothing else. -/
theorem breakpointCheck_frame (s : State) :
    (breakpointCheck s).2 = { s with bps := (breakpointCheck s).2.bps, out := (breakpointCheck s).2.out } := by
  unfold breakpointCheck
  split
  · rfl
  · split <;> rfl

theorem breakpointCheck_wf (s : State) (h : BpTable.wf s.bps) : BpTable.wf (breakpointCheck s).2.bps := by
  unfold breakpointCheck
  split
  · exact h
  · split <;> exact BpTable.put_wf _ _ _ h

/-- The check leaves the word at PC and what it decodes to as they were. -/
theorem fetchWord_breakpointCheck (s : State) : fetchWord (breakpointCheck s).2 = fetchWord s := by
  rw [breakpointCheck_frame]
  rfl

/-- Past the end of memory the unit halts before the check (R171 step 1). -/
theorem unit_pcPastEnd (s : State) (h : 4096 ≤ s.pc.toNat) : unit s = .next (halt .pcPastEnd s) :=
  if_pos h

/-- Where the check hits, the unit halts on the breakpoint (R171 step 2). -/
theorem unit_breakpoint (s : State) (hp : s.pc.toNat < 4096) (hb : (breakpointCheck s).1 = true) :
    unit s = .next (halt (.breakpoint s.pc.toNat) (breakpointCheck s).2) := by
  unfold unit
  rw [if_neg (by omega)]
  exact if_pos hb

/-- Where the check does not hit, the unit fetches, decodes and executes (R171 steps 3 to 7), on the state the check
leaves. -/
theorem unit_passes (s : State) (hp : s.pc.toNat < 4096) (hb : (breakpointCheck s).1 = false) :
    unit s =
      if s.pc.toNat = 4095 then .next (takeFault .fetchOutOfRange (breakpointCheck s).2)
      else match decode s.params.sysBehaviour (fetchWord s) with
        | none => .next (halt .decodeMiss (breakpointCheck s).2)
        | some i => exec i (breakpointCheck s).2 := by
  have hpc : (breakpointCheck s).2.pc = s.pc := by rw [breakpointCheck_frame]
  have hsys : (breakpointCheck s).2.params = s.params := by rw [breakpointCheck_frame]
  unfold unit
  rw [if_neg (by omega)]
  simp only [hb, hpc, hsys, fetchWord_breakpointCheck]
  rfl

/-! ## The frame end (R181) -/

theorem countDown_toNat (b : Byte) : (countDown b).toNat = b.toNat - 1 := by
  revert b
  decide

theorem frameEnd_frame (s : State) :
    frameEnd s = { s with
      dt := (frameEnd s).dt, st := (frameEnd s).st, beep := (frameEnd s).beep, out := (frameEnd s).out } := by
  unfold frameEnd
  dsimp only
  split <;> rfl

/-! ## Whose move is next (R208) -/

theorem step_core (s : State) (h : s.moves = [] ∨ ∃ rest, s.moves = .core :: rest) :
    step s = coreMove { s with moves := s.moves.tail } := by
  rcases h with h | ⟨rest, h⟩
  · obtain ⟨⟩ := s
    cases h
    rfl
  · simp only [step, nextMove, h, List.tail_cons]

theorem step_unit (s : State) (k : Nat) (h : UnitNext k s) : step s = unit (unitTaken k s) := by
  rw [step_core s h.2.2]
  have hs : s.schedState = .running := h.2.1
  simp only [coreMove, h.1, unitTaken]
  exact if_pos hs

theorem step_host (s : State) (c : Command) (h : HostNext c s) : step s = hostCommand c (moveTaken s) := by
  obtain ⟨hb, rest, hm⟩ := h
  simp [step, nextMove, hm, hb, moveTaken]

theorem step_host_in_tick (s : State) (c : Command) (rest : List Move) (h : s.moves = .host c :: rest)
    (hc : c.fitsInTick = true) : step s = hostCommand c { s with moves := rest } := by
  simp [step, nextMove, h, hc]

/-- `Step` where it is accepted (R185). -/
theorem stepCommand_of_unit (s u : State) (hp : s.schedState = .paused) (hf : s.haltCause.isFault = false)
    (hu : unit (stepStart s) = .next u) : stepCommand s = .next (stepDone u) := by
  unfold stepCommand
  rw [if_pos ⟨hp, hf⟩]
  unfold stepStart at hu
  rw [hu]

/-- A run of n + 1 steps is one step and a run of n. -/
theorem run_succ_of_step (M : Host.Core) (n : Nat) (s t : M.State) (h : M.step s = .next t) :
    M.run (n + 1) s = M.run n t := by
  simp only [Host.Core.run, h]

theorem core_run_succ (n : Nat) (s t : State) (h : step s = .next t) :
    Sys2Proof.core.run (n + 1) s = Sys2Proof.core.run n t :=
  run_succ_of_step Sys2Proof.core n s t h

end Sys2Proof.Machine
end

