-- ==== Sys2Proof/Tests/Slice0.lean ====
section
/-! SUPPORT. Tests: the spec's own vectors (95_test_vectors.md) and rule examples, one step each, and words written
out from the patterns of R88. -/

namespace Sys2Proof.Tests

open Sys2Proof Sys2Proof.Machine

/-! ## WellFormed: an ill-formed term for each check (R84, R100) -/

theorem test_sys_of_cls_word_refused : Instr.wellFormed (.sys 0x0E0) = false := by decide
theorem test_sys_of_ret_word_refused : Instr.wellFormed (.sys 0x0EE) = false := by decide
theorem test_sys_wellFormed : Instr.wellFormed (.sys 0x123) = true := by decide

/-! ## Decode: every constructor, by a word written out from its pattern in R88 -/

theorem test_decode_flow :
    [0x0123, 0x00E0, 0x00EE, 0x1ABC, 0x2DEF].map (decode .nop) =
      [some (.sys 0x123), some .cls, some .ret, some (.jp 0xABC), some (.call 0xDEF)] := by decide

theorem test_decode_skips :
    [0x3A5C, 0x4B6D, 0x5CD0, 0x9EF0, 0xE39E, 0xE4A1].map (decode .nop) =
      [some (.seImm 0xA 0x5C), some (.sneImm 0xB 0x6D), some (.seReg 0xC 0xD), some (.sneReg 0xE 0xF),
       some (.skp 3), some (.sknp 4)] := by decide

theorem test_decode_alu_imm :
    [0x6A12, 0x7B34, 0xCD56].map (decode .nop) =
      [some (.ldImm 0xA 0x12), some (.addImm 0xB 0x34), some (.rnd 0xD 0x56)] := by decide

theorem test_decode_alu_reg :
    [0x8120, 0x8231, 0x8342, 0x8453, 0x8564, 0x8675, 0x8786, 0x8897, 0x89AE].map (decode .nop) =
      [some (.ldReg 1 2), some (.orReg 2 3), some (.andReg 3 4), some (.xorReg 4 5), some (.addReg 5 6),
       some (.subReg 6 7), some (.shr 7 8), some (.subn 8 9), some (.shl 9 0xA)] := by decide

theorem test_decode_index_display :
    [0xA123, 0xB456, 0xD789].map (decode .nop) =
      [some (.ldI 0x123), some (.jpV0 0x456), some (.drw 7 8 9)] := by decide

theorem test_decode_misc :
    [0xF107, 0xF20A, 0xF315, 0xF418, 0xF51E, 0xF629, 0xF733, 0xF855, 0xF965].map (decode .nop) =
      [some (.ldVxDt 1), some (.ldVxK 2), some (.ldDtVx 3), some (.ldStVx 4), some (.addI 5), some (.ldF 6),
       some (.bcd 7), some (.stBlock 8), some (.ldBlock 9)] := by decide

/-- V4 to V8, and R92's SUPER-CHIP words FX30, FX75, FX85. -/
theorem test_decode_misses :
    [0x5121, 0x8128, 0xE19F, 0xF0FF, 0xFFFF, 0x9121, 0xF130, 0xF175, 0xF185].map (decode .nop) =
      [none, none, none, none, none, none, none, none, none] := by decide

/-- V1 to V3 under `DecodeMiss` (R84, R90). -/
theorem test_decode_zero_without_sys :
    ([0x00E0, 0x00EE, 0x0123] : List Word).map (decode .decodeMiss) = [some .cls, some .ret, none] := by decide

theorem test_decode_bytes_truncated : decodeBytes .nop [0x12] = .reject .truncated := by decide
theorem test_decode_bytes_rest : decodeBytes .nop [0xD0, 0x11, 0x42] = .instr (.drw 0 1 1) [0x42] := by decide
theorem test_decode_table_word : decodeTableWord 16 0x8124 = some (.addReg 1 2) := by decide

/-! ## Helpers: small states -/

/-- The reset state, Running inside a tick. -/
def running : State := { State.reset with schedState := .running, burst := some 9 }

/-- `bs` stored from address `a`. -/
def withBytes (a : Nat) (bs : List Byte) (s : State) : State :=
  { s with mem := Memory.writeWhere s.params.font (fun _ => true) a bs s.mem }

/-- The word `w` stored at PC. -/
def withWord (w : Word) (s : State) : State := withBytes s.pc.toNat [hiByte w, loByte w] s

/-- What one step leaves, seen through `f`. -/
def after {α : Type} (s : State) (f : State → α) : Option α :=
  match step s with
  | .next t => some (f t)
  | .fault _ => none
  | .refused _ => none

/-- HALT_CAUSE, SCHED_STATE and PC. -/
def haltView (t : State) : HaltCause × SchedState × Word := (t.haltCause, t.schedState, t.pc)

/-! ## Control flow (V3, V10 to V24) -/

theorem test_sys_nop : after (withWord 0x0123 { running with pc := 0x300 }) (·.pc) = some 0x302 := by decide
theorem test_ret : after (withWord 0x00EE { running with pc := 0x400, stack := [0x202, 0x300] })
    (fun t => (t.pc, t.stack)) = some (0x202, [0x300]) := by decide
theorem test_ret_empty : after (withWord 0x00EE running) haltView =
    some (.fault .stackUnderflow, .paused, 0x200) := by decide
theorem test_jp : after (withWord 0x1ABC running) (·.pc) = some 0xABC := by decide
theorem test_call : after (withWord 0x2400 { running with stack := [0x111] })
    (fun t => (t.pc, t.stack)) = some (0x400, [0x202, 0x111]) := by decide
theorem test_seImm_taken : after (withWord 0x3110 (setV 1 0x10 running)) (·.pc) = some 0x204 := by decide
theorem test_seImm_not : after (withWord 0x3110 (setV 1 0x11 running)) (·.pc) = some 0x202 := by decide
theorem test_sneImm_not : after (withWord 0x4110 (setV 1 0x10 running)) (·.pc) = some 0x202 := by decide
theorem test_seReg : after (withWord 0x5120 (setV 1 3 (setV 2 3 running))) (·.pc) = some 0x204 := by decide
theorem test_sneReg : after (withWord 0x9120 (setV 1 3 (setV 2 4 running))) (·.pc) = some 0x204 := by decide
theorem test_jpV0_no_wrap : after (withWord 0xBFFF (setV 0 0xFF running)) (·.pc) = some 0x10FE := by decide
theorem test_jpV0_odd : after (withWord 0xB201 (setV 0 1 running)) (·.pc) = some 0x202 := by decide
theorem test_skip_past_end : after (withWord 0x3110 (setV 1 0x10 { running with pc := 0xFFE })) (·.pc) =
    some 0x1002 := by decide
theorem test_pc_past_end : after { running with pc := 0x10FE } haltView = some (.pcPastEnd, .paused, 0x10FE) := by
  decide
theorem test_fetch_at_fff : after { running with pc := 0xFFF } haltView =
    some (.fault .fetchOutOfRange, .paused, 0xFFF) := by decide
theorem test_decode_miss_halts : after (withWord 0xFFFF running) (fun t => (haltView t, t.out)) =
    some ((.decodeMiss, .paused, 0x200), []) := by decide
theorem test_sys_miss_halts :
    after (withWord 0x0123 { running with params := { Params.default with sysBehaviour := .decodeMiss } }) haltView =
      some (.decodeMiss, .paused, 0x200) := by decide

/-! ## Arithmetic (W1 to W3, V30 to V45) -/

/-- V[1], VF and PC. -/
def v1f (t : State) : Byte × Byte × Word := (getV 1 t, getV vf t, t.pc)

/-- Running, with the parameter `VF_ORDER` at `ResultLast`. -/
def runningResultLast : State := { running with params := { Params.default with vfOrder := .resultLast } }

theorem test_ldImm : after (withWord 0x6342 running) (getV 3) = some 0x42 := by decide
theorem test_addImm_wraps : after (withWord 0x73C0 (setV 3 0x42 (setV vf 7 running)))
    (fun t => (getV 3 t, getV vf t)) = some (0x02, 7) := by decide
theorem test_addImm_vf : after (withWord 0x7F01 (setV vf 0xFF running)) (getV vf) = some 0 := by decide
theorem test_ldReg : after (withWord 0x8120 (setV 2 0x5A running)) (getV 1) = some 0x5A := by decide
theorem test_or : after (withWord 0x8121 (setV 1 0xF0 (setV 2 0x0F (setV vf 1 running)))) v1f =
    some (0xFF, 0, 0x202) := by decide
theorem test_or_resultLast : after (withWord 0x8F21 (setV vf 0x10 (setV 2 1 runningResultLast))) (getV vf) =
    some 0x11 := by decide
theorem test_and : after (withWord 0x8122 (setV 1 0xF0 (setV 2 0x3C (setV vf 1 running)))) v1f =
    some (0x30, 0, 0x202) := by decide
theorem test_xor : after (withWord 0x8123 (setV 1 0xFF (setV 2 0x0F (setV vf 1 running)))) v1f =
    some (0xF0, 0, 0x202) := by decide
theorem test_add_carry : after (withWord 0x8124 (setV 1 0xFF (setV 2 1 running))) v1f =
    some (0, 1, 0x202) := by decide
theorem test_add_old_vf : after (withWord 0x81F4 (setV 1 0xFF (setV vf 1 running))) v1f =
    some (0, 1, 0x202) := by decide
theorem test_sub_less : after (withWord 0x8125 (setV 1 5 (setV 2 7 running))) v1f = some (0xFE, 0, 0x202) := by decide
theorem test_sub_equal : after (withWord 0x8125 (setV 1 5 (setV 2 5 (setV vf 9 running)))) v1f =
    some (0, 0, 0x202) := by decide
theorem test_shr : after (withWord 0x8126 (setV 1 0x55 (setV 2 0x81 running))) v1f = some (0x40, 1, 0x202) := by
  decide
theorem test_shr_resultLast : after (withWord 0x8F26 (setV vf 0x10 (setV 2 2 runningResultLast))) (getV vf) =
    some 1 := by decide
theorem test_subn_less : after (withWord 0x8127 (setV 1 5 (setV 2 7 running))) v1f = some (2, 1, 0x202) := by decide
theorem test_subn_greater : after (withWord 0x8127 (setV 1 7 (setV 2 5 running))) v1f = some (0xFE, 0, 0x202) := by
  decide
theorem test_shl : after (withWord 0x812E (setV 2 0x81 running)) v1f = some (2, 1, 0x202) := by decide
theorem test_shl_flagLast : after (withWord 0x8F2E (setV vf 0x10 (setV 2 0x80 running))) (getV vf) = some 1 := by
  decide

/-- V38, for whatever byte is drawn. -/
theorem test_rnd_masks : after (withWord 0xC10F running) (fun t => (getV 1 t, t.draws)) =
    some (Config.drawByte 0 &&& 0x0F, 1) := by rfl

/-! ## Index and memory (V50 to V68) -/

/-- I, VF and PC. -/
def iView (t : State) : Word × Byte × Word := (t.i, getV vf t, t.pc)

theorem test_ldI : after (withWord 0xA123 running) (·.i) = some 0x123 := by decide
theorem test_addI_flag : after (withWord 0xF11E (setV 1 1 (setV vf 7 { running with i := 0x0FFF }))) iView =
    some (0x1000, 1, 0x202) := by decide
theorem test_addI_wraps : after (withWord 0xF11E (setV 1 2 (setV vf 7 { running with i := 0xFFFF }))) iView =
    some (0x0001, 7, 0x202) := by decide
theorem test_ldF_whole_byte : after (withWord 0xF129 (setV 1 0xFF running)) (·.i) = some 0x04FB := by decide
theorem test_bcd : after (withWord 0xF133 (setV 1 0xFE { running with i := 0x300 }))
    (fun t => ([0x300, 0x301, 0x302].map (readMem t), t.i)) = some ([2, 5, 4], 0x300) := by decide
theorem test_bcd_fault : after (withWord 0xF133 (setV 1 0x80 { running with i := 0x0FFE })) haltView =
    some (.fault .memoryOutOfRange, .paused, 0x200) := by rfl
theorem test_stBlock : after (withWord 0xF255 (setV 0 1 (setV 1 2 (setV 2 3 (setV 3 9 { running with i := 0x300 })))))
    (fun t => ([0x300, 0x301, 0x302, 0x303].map (readMem t), t.i)) = some ([1, 2, 3, 0], 0x303) := by decide
theorem test_stBlock_fault : after (withWord 0xFF55 { running with i := 0x0FF1 }) (fun t => (haltView t, t.i)) =
    some ((.fault .memoryOutOfRange, .paused, 0x200), 0x0FF1) := by rfl
theorem test_ldBlock_last : after (withWord 0xF065 (withBytes 0xFFF [0x42] { running with i := 0x0FFF }))
    (fun t => (getV 0 t, t.i)) = some (0x42, 0x1000) := by decide
theorem test_ldBlock_vf : after (withWord 0xFF65 (withBytes 0x30F [0x99] { running with i := 0x300 }))
    (fun t => (getV 0xE t, getV vf t, t.i)) = some (0, 0x99, 0x310) := by decide

/-! ## Display (W4, V70 to V75) -/

/-- The set pixels of row `y`. -/
def rowView (y : Nat) (t : State) : List Nat := (List.range 64).filter fun x => getPixel t.surf x y

theorem test_cls : after (withWord 0x00E0 { running with surf := setPixel blankSurface 63 31 true })
    (fun t => getPixel t.surf 63 31) = some false := by decide
theorem test_drw_row : after (withWord 0xD011 (withBytes 0x300 [0xF1] { running with i := 0x300 }))
    (fun t => (rowView 0 t, getV vf t)) = some ([0, 1, 2, 3, 7], 0) := by decide
theorem test_drw_collides :
    after (withWord 0xD011 (withBytes 0x300 [0xC0] { running with i := 0x300, surf := setPixel blankSurface 1 0 true }))
      (fun t => (rowView 0 t, getV vf t)) = some ([0], 1) := by decide

/-! ## Keys and timers (V80 to V88) -/

theorem test_skp : after (withWord 0xE19E (setV 1 5 { running with keys := 0x0020 })) (·.pc) = some 0x204 := by decide
theorem test_skp_index : after (withWord 0xE19E (setV 1 0x10 running)) haltView =
    some (.fault .keyIndexOutOfRange, .paused, 0x200) := by decide
theorem test_sknp : after (withWord 0xE1A1 (setV 1 5 { running with keys := 0x0020 })) (·.pc) = some 0x202 := by
  decide
theorem test_sknp_clear : after (withWord 0xE1A1 (setV 1 5 { running with keys := 0xFFDF })) (·.pc) =
    some 0x204 := by decide
theorem test_ldVxDt : after (withWord 0xF107 { running with dt := 0x2A }) (getV 1) = some 0x2A := by decide
theorem test_ldVxK_stall : after (withWord 0xF30A running) (fun t => (t.pc, t.schedState)) =
    some (0x200, .running) := by decide
theorem test_ldVxK : after (withWord 0xF30A { running with lastKey := some 7 })
    (fun t => (getV 3 t, t.lastKey, t.pc)) = some (7, none, 0x202) := by decide
theorem test_ldDtVx : after (withWord 0xF115 (setV 1 3 running)) (·.dt) = some 3 := by decide
theorem test_ldStVx : after (withWord 0xF118 (setV 1 5 running)) (fun t => (t.st, t.beep)) = some (5, false) := by
  decide

/-! ## Scheduler, breakpoints and host (W7, V87 to V95) -/

theorem test_frame_end_beeps : after { running with burst := some 0, st := 5, dt := 1 }
    (fun t => (t.st, t.dt, t.beep, t.out, t.burst)) =
    some (4, 0, true, [.tick, .beepStatus true], none) := by decide
theorem test_frame_end_floor : after { running with burst := some 0, st := 1 }
    (fun t => (t.st, t.dt, t.beep, t.out)) = some (0, 0, false, [.tick]) := by decide
theorem test_breakpoint_hits :
    after (withWord 0x7001 { running with bps := [⟨0x200, 0, false⟩] }) (fun t => (haltView t, t.bps, getV 0 t)) =
      some ((.breakpoint 0x200, .paused, 0x200), [⟨0x200, 1, true⟩], 0) := by decide
theorem test_breakpoint_passes :
    after (withWord 0x7001 { running with bps := [⟨0x200, 1, true⟩] }) (fun t => (t.bps, getV 0 t)) =
      some ([⟨0x200, 1, false⟩], 1) := by decide
/-- V90, row 3: the third Step of a frame of three runs the frame end. -/
theorem test_step_completes_frame :
    after (withWord 0x7001 { State.reset with
        schedState := .paused, ipf := 3, frameCount := 1, dt := 5, moves := [.host .step] })
      (fun t => (t.frameCount, t.dt, t.pc, t.schedState, t.out)) =
      some (3, 4, 0x202, .paused, [.tick]) := by decide
/-- V90, row 7: a Step that stops consumes nothing. -/
theorem test_step_stop_consumes_nothing :
    after (withWord 0xFFFF { State.reset with
        schedState := .paused, ipf := 3, frameCount := 3, moves := [.host .step] })
      (fun t => (t.frameCount, t.haltCause, t.schedState, t.out)) =
      some (3, .decodeMiss, .paused, []) := by decide
theorem test_add_breakpoint_odd :
    after { State.reset with progCount := 6, moves := [.host (.tryAddBreakpoint 0x203)] } (fun t => (t.bps, t.out)) =
      some ([], [.addBreakpointReply false 0x203]) := by decide
theorem test_load_places_program :
    after { State.reset with moves := [.host (.load (some [0xA3, 0x01]))] }
      (fun t => (readMem t 0x200, readMem t 0x201, t.progCount, t.out)) =
      some (0xA3, 0x01, 2, [.loadReply true, .programLoaded 2]) := by decide
theorem test_key_release_sets_lastKey :
    after { State.reset with keys := 0x0180, moves := [.host (.updateKeyState 7 false)] }
      (fun t => (t.keys, t.lastKey)) = some (0x0100, some 7) := by decide
theorem test_command_waits_for_tick_end :
    after (withWord 0x6001 { running with moves := [.host .pause] }) (fun t => (getV 0 t, t.schedState, t.moves)) =
      some (1, .running, [.host .pause]) := by decide
theorem test_get_opcode_out_of_range :
    after { State.reset with moves := [.host (.getOpcode 0xFFF)] } (·.out) = some [.opcodeReply none] := by decide
theorem test_withFetchWord_runs_the_word :
    after (State.reset.withFetchWord 16 0x6342) (fun t => (getV 3 t, t.pc)) = some (0x42, 0x202) := by decide

/-! ## Witnesses: for each statement with hypotheses, states and operands that meet them all -/

/-- Running inside a tick, at the last address an instruction can stand at (R171), with memory, a stack and I as
given. -/
def atEnd (w : Word) : State := withWord w { running with pc := 0xFFE, stack := [0x1000], i := 0x0FFD }

/-- Paused between ticks after a halt, `c` the next command. -/
def pausedWith (h : HaltCause) (c : Command) : State :=
  { State.reset with schedState := .paused, haltCause := h, moves := [.host c, .core] }

/-- Stopped, with six bytes loaded and one breakpoint, `c` the next command. -/
def stoppedWith (c : Command) : State :=
  { withBytes 0x200 [1, 2, 3, 4, 5, 6] State.reset with
    progCount := 6, progBytes := [1, 2, 3, 4, 5, 6], bps := [⟨0x202, 0, false⟩], moves := [.host c, .core] }

theorem noBreakpoints (s : State) (h : s.bps = []) : NoBreakpointAtPc s := by
  simp [NoBreakpointAtPc, h]

/-- What one instruction leaves, seen through `f`. -/
def ran {α : Type} (i : Instr) (s : State) (f : State → α) : Option α :=
  match exec i s with
  | .next t => some (f t)
  | .fault _ => none
  | .refused _ => none

theorem test_witness_encoding :
    Instr.wellFormed (.sys 0xFFF) = true ∧ Instr.wellFormed (.drw 15 15 15) = true ∧
    decode .nop 0x0FFF = some (.sys 0xFFF) ∧ decode .decodeMiss 0xFFFF = none ∧
    (0x00EE : Word) &&& (rowPattern .ret).2 = (rowPattern .ret).1 ∧
    (0x00EF : Word) &&& (rowPattern (.sys 0)).2 = (rowPattern (.sys 0)).1 ∧ (0x00EF : Word) ≠ 0x00EE := by decide

theorem test_witness_SysOnlyAdvances : (0x0E1 : Addr12) ≠ 0x0E0 ∧ (0x0E1 : Addr12) ≠ 0x0EE := by decide

theorem test_witness_RetPopsIntoPc : (atEnd 0).stack = 0x1000 :: [] ∧ running.stack = [] := by decide

theorem test_witness_CallPushesReturnAddress : (atEnd 0).pc.toNat ≤ 0xFFE := by decide

theorem test_witness_AddToIndex :
    ran (.addI 1) (setV 1 1 { running with i := 0x0FFF }) (fun t => t.i.toNat / 4096 ≠ 0) = some True ∧
    ran (.addI 1) (setV 1 2 { running with i := 0xFFFF }) (fun t => t.i.toNat / 4096 = 0) = some True := by
  constructor <;> simp [ran, exec, execAddI, running, State.reset, State.resetWith, setV, setI, advance, iPlus, getV]

theorem test_witness_stored_blocks :
    Memory.wf (atEnd 0x1234).params.font (atEnd 0x1234).mem ∧ (atEnd 0x1234).mem ≠ [] ∧
    (atEnd 0x1234).i.toNat + 2 < 4096 ∧ (atEnd 0x1234).i.toNat + (2 : Reg).val < 4096 ∧
    (atEnd 0x1234).i.toNat + 1 < 4096 := by decide

/-- Of a store of two registers where the very next unit fetches them, and of the digits of a BCD with the byte before
them. -/
theorem test_witness_StoredBytesAreFetched :
    (let s := setV 0 0x81 (setV 1 0x24 { running with i := 0x202 })
     (∃ t, exec (.stBlock 1) s = .next t ∧ t.pc = 0x202 ∧ UnitNext 8 t ∧ NoBreakpointAtPc t) ∧
     Memory.wf s.params.font s.mem ∧ s.i.toNat + (1 : Reg).val < 4096 ∧ BlockByte 1 s 0x202 0x81 ∧
     BlockByte 1 s 0x203 0x24 ∧ decode .nop 0x8124 = some (.addReg 1 2)) ∧
    (let s := setV 1 0xFE (atEnd 0x1234)
     s.i.toNat + 2 < 4096 ∧ BcdByte 1 s 0xFFC 0 ∧ BcdByte 1 s 0xFFD 2 ∧ BcdByte 1 s 0xFFE 5 ∧ BcdByte 1 s 0xFFF 4 ∧
     Memory.wf s.params.font s.mem ∧ decode .nop 0x0504 = some (.sys 0x504)) := by
  refine ⟨⟨⟨_, rfl, rfl, ⟨rfl, rfl, .inl rfl⟩, noBreakpoints _ rfl⟩, by decide, by decide,
      .inl ⟨0, by decide, rfl, rfl⟩, .inl ⟨1, by decide, rfl, rfl⟩, by decide⟩,
    by decide, .inr (.inr (.inr ⟨by decide, by decide⟩)), .inl ⟨rfl, by decide⟩, .inr (.inl ⟨rfl, by decide⟩),
      .inr (.inr (.inl ⟨rfl, by decide⟩)), by decide, by decide⟩

theorem test_witness_block_faults :
    4096 ≤ ({ atEnd 0 with i := 0x0FFE } : State).i.toNat + 2 ∧ 4096 ≤ (atEnd 0).i.toNat + (3 : Reg).val ∧
    4096 ≤ ({ atEnd 0 with i := 0xFFFF } : State).i.toNat + (0 : Reg).val := by decide

theorem test_witness_drw :
    ((0 : Reg).val = 0 ∨ (atEnd 0).i.toNat + (0 : Reg).val ≤ 4096) ∧ (atEnd 0).i.toNat + (3 : Reg).val ≤ 4096 ∧
    (4 : Reg).val ≠ 0 ∧ 4096 ≤ (atEnd 0).i.toNat + (4 : Reg).val - 1 := by decide

theorem test_witness_keys :
    (getV 1 (setV 1 15 running)).toNat ≤ 15 ∧ 15 < (getV 1 (setV 1 16 running)).toNat ∧ running.lastKey = none ∧
    ({ running with lastKey := some 15 } : State).lastKey = some 15 := by decide

/-- Each kind of state has an instruction that changes it. -/
theorem test_witness_OnlyNamedWriters :
    ran (.ldVxK 0) { running with lastKey := some 15 } (·.lastKey) = some none ∧
    ran (.call 1) running (·.stack) = some [0x202] ∧ ran .ret (atEnd 0) (·.stack) = some [] ∧
    ran (.ldDtVx 1) (setV 1 9 running) (·.dt) = some 9 ∧ ran (.ldStVx 1) (setV 1 9 running) (·.st) = some 9 ∧
    ran (.ldI 7) running (·.i) = some 7 ∧ ran (.bcd 0) (atEnd 0x1234) (·.mem) = some [] := by decide

theorem test_witness_VfWritersAreListed :
    writesVf (.ldImm 0 1) = false ∧ exec (.ldImm 0 1) running = .next (advance (setV 0 1 running)) :=
  ⟨rfl, rfl⟩

theorem test_witness_StepRunsDecodedInstruction :
    UnitNext 8 (atEnd 0x8124) ∧ (atEnd 0x8124).pc.toNat < 4095 ∧ NoBreakpointAtPc (atEnd 0x8124) ∧
    decode (atEnd 0x8124).params.sysBehaviour (wordAtPc (atEnd 0x8124)) = some (.addReg 1 2) := by
  refine ⟨⟨rfl, rfl, .inl rfl⟩, by decide, noBreakpoints _ rfl, by decide⟩

/-- The same place with a breakpoint, inactive or active, and a word that decodes or one that misses. -/
def atBreakpointOf (w : Word) (active : Bool) : State := { atEnd w with bps := [⟨0xFFE, 1, active⟩] }

/-- The same with a word that decodes. -/
abbrev atBreakpoint (active : Bool) : State := atBreakpointOf 0x8124 active

theorem test_witness_breakpoints (active : Bool) :
    UnitNext 8 (atBreakpoint active) ∧ (atBreakpoint active).pc.toNat < 4095 ∧ BpTable.wf (atBreakpoint active).bps ∧
    ⟨(atBreakpoint active).pc.toNat, 1, active⟩ ∈ (atBreakpoint active).bps ∧
    (atBreakpoint active).haltCause = .none ∧
    decode (atBreakpoint active).params.sysBehaviour (wordAtPc (atBreakpoint active)) = some (.addReg 1 2) := by
  refine ⟨⟨rfl, rfl, .inl rfl⟩, ?_⟩
  cases active <;> decide

/-- R216: under an active entry, a word that misses decode. -/
theorem test_witness_miss_at_active_breakpoint :
    UnitNext 8 (atBreakpointOf 0xFFFF true) ∧ (atBreakpointOf 0xFFFF true).pc.toNat < 4095 ∧
    BpTable.wf (atBreakpointOf 0xFFFF true).bps ∧
    ⟨(atBreakpointOf 0xFFFF true).pc.toNat, 1, true⟩ ∈ (atBreakpointOf 0xFFFF true).bps ∧
    decode (atBreakpointOf 0xFFFF true).params.sysBehaviour (wordAtPc (atBreakpointOf 0xFFFF true)) = none ∧
    after (atBreakpointOf 0xFFFF true) (fun t => (haltView t, t.bps)) =
      some ((.decodeMiss, .paused, 0xFFE), [⟨0xFFE, 1, false⟩]) :=
  ⟨⟨rfl, rfl, .inl rfl⟩, by decide⟩

theorem test_witness_UnitHaltsWithoutExecuting :
    UnitNext 8 { running with pc := 0x1000 } ∧ UnitNext 8 { running with pc := 0xFFF } ∧ UnitNext 8 (atEnd 0xFFFF) ∧
    NoBreakpointAtPc { running with pc := 0xFFF } ∧ NoBreakpointAtPc (atEnd 0xFFFF) ∧
    decode (atEnd 0xFFFF).params.sysBehaviour (wordAtPc (atEnd 0xFFFF)) = none := by
  refine ⟨⟨rfl, rfl, .inl rfl⟩, ⟨rfl, rfl, .inl rfl⟩, ⟨rfl, rfl, .inl rfl⟩, noBreakpoints _ rfl,
    noBreakpoints _ rfl, by decide⟩

theorem test_witness_frame_end :
    ({ running with burst := some 0 } : State).burst = some 0 ∧ running.moves = [] ∧
    ({ running with schedState := .paused } : State).burst = some 9 ∧
    ({ running with schedState := .paused } : State).schedState ≠ .running := by decide

theorem test_witness_TickFiresWhileRunning :
    ({ running with burst := none, moves := [.tickFire 0] } : State).burst = none ∧
    ({ running with burst := none, moves := [.tickFire 0] } : State).schedState = .running ∧
    State.reset.schedState ≠ .running ∧ State.reset.burst = none ∧ State.reset.moves = [] ∧
    ({ running with burst := none } : State).burst = none := by decide

/-- The core by itself: a free tick in Running, and nothing executes in Stopped or Paused (R244, R177). -/
theorem test_core_between_ticks :
    after { running with burst := none } (fun t => (t.burst, t.draws, t.pc)) =
      some (some (Config.burst 0), 1, 0x200) ∧
    after State.reset id = some State.reset ∧
    after { running with burst := none, schedState := .paused } (fun t => (t.burst, t.pc)) = some (none, 0x200) :=
  ⟨rfl, rfl, rfl⟩

theorem test_witness_OneTickPerTickFire : running.moves = [] ∧ running.burst = some 9 := by decide

/-- `Step` next, at a word that executes or one that misses, with `n` of its frame left. -/
def stepping (w : Word) (n : Nat) : State := withWord w { pausedWith (.breakpoint 0x200) .step with frameCount := n }

/-- The same with a breakpoint at PC, inactive or active. -/
def steppingAtBreakpoint (w : Word) (active : Bool) : State :=
  { stepping w 3 with bps := [⟨0x200, 1, active⟩] }

/-- P7: a Step hits an inactive breakpoint and consumes nothing, and passes an active one and executes. -/
theorem test_step_at_breakpoint :
    after (steppingAtBreakpoint 0x7001 false) (fun t => (haltView t, t.bps, getV 0 t, t.frameCount)) =
      some ((.breakpoint 0x200, .paused, 0x200), [⟨0x200, 2, true⟩], 0, 3) ∧
    after (steppingAtBreakpoint 0x7001 true) (fun t => (haltView t, t.bps, getV 0 t, t.frameCount)) =
      some ((.none, .paused, 0x202), [⟨0x200, 1, false⟩], 1, 2) := by decide

theorem test_witness_Step_at_breakpoint (w : Word) (active : Bool) :
    HostNext .step (steppingAtBreakpoint w active) ∧ (steppingAtBreakpoint w active).schedState = .paused ∧
    (∀ code, (steppingAtBreakpoint w active).haltCause ≠ .fault code) ∧
    (steppingAtBreakpoint w active).pc.toNat < 4095 ∧ BpTable.wf (steppingAtBreakpoint w active).bps ∧
    ⟨(steppingAtBreakpoint w active).pc.toNat, 1, active⟩ ∈ (steppingAtBreakpoint w active).bps ∧
    1 ≤ (steppingAtBreakpoint w active).ipf := by
  refine ⟨⟨rfl, _, rfl⟩, rfl, fun _ => nofun, ?_, ?_, .head _, ?_⟩
  · show (0x200 : Word).toNat < 4095
    decide
  · show BpTable.wf [⟨0x200, 1, active⟩]
    revert active
    decide
  · show 1 ≤ Params.default.ipfDefault
    decide

theorem test_witness_Step_at_breakpoint_words :
    decode .nop (wordAtPc (steppingAtBreakpoint 0x7001 true)) = some (.addImm 0 1) ∧
    decode .nop (wordAtPc (steppingAtBreakpoint 0xFFFF true)) = none := by decide

theorem test_witness_StepRunsOneUnit :
    HostNext .step (stepping 0x7001 1) ∧ (stepping 0x7001 1).schedState = .paused ∧
    (∀ code, (stepping 0x7001 1).haltCause ≠ .fault code) ∧ 1 ≤ (stepping 0x7001 1).ipf ∧
    (stepping 0x7001 1).pc.toNat < 4095 ∧ NoBreakpointAtPc (stepping 0x7001 1) ∧
    decode (stepping 0x7001 1).params.sysBehaviour (wordAtPc (stepping 0x7001 1)) = some (.addImm 0 1) :=
  ⟨⟨rfl, _, rfl⟩, rfl, fun _ => nofun, by decide, by decide, noBreakpoints _ rfl, by decide⟩

/-- Its unit executes with one of the frame left, executes with the counter refilled, or halts. -/
theorem test_witness_StepRunsOneUnit_clauses :
    (stepStart (stepping 0x7001 1)).frameCount = 1 ∧ (stepStart (stepping 0x7001 0)).frameCount = 10 ∧
    after (stepping 0x7001 1) (·.haltCause) = some .none ∧
    after (stepping 0x00EE 0) (fun t => (t.haltCause, t.frameCount)) = some (.fault .stackUnderflow, 10) := by decide

theorem test_witness_StepWithoutExecution :
    HostNext .step (stepping 0xFFFF 3) ∧ (stepping 0xFFFF 3).schedState = .paused ∧
    (∀ code, (stepping 0xFFFF 3).haltCause ≠ .fault code) ∧ NoBreakpointAtPc (stepping 0xFFFF 3) ∧
    decode (stepping 0xFFFF 3).params.sysBehaviour (wordAtPc (stepping 0xFFFF 3)) = none ∧
    HostNext .step (pausedWith (.fault .stackUnderflow) .step) ∧
    (∃ code, (pausedWith (.fault .stackUnderflow) .step).haltCause = .fault code) :=
  ⟨⟨rfl, _, rfl⟩, rfl, fun _ => nofun, noBreakpoints _ rfl, by decide, ⟨rfl, _, rfl⟩, _, rfl⟩

/-- `Step` past the end of memory, and at its last byte. -/
theorem test_witness_StepWithoutExecution_ends :
    HostNext .step { stepping 0x7001 3 with pc := 0x1000 } ∧
    4096 ≤ ({ stepping 0x7001 3 with pc := 0x1000 } : State).pc.toNat ∧
    ({ stepping 0x7001 3 with pc := 0xFFF } : State).pc.toNat = 4095 ∧
    NoBreakpointAtPc { stepping 0x7001 3 with pc := 0xFFF } :=
  ⟨⟨rfl, _, rfl⟩, by decide, by decide, noBreakpoints _ rfl⟩

theorem test_witness_LifecycleCommands :
    HostNext .startAsync (stoppedWith .startAsync) ∧ HostNext .startAsync (pausedWith .none .startAsync) ∧
    HostNext .pause { running with burst := none, moves := [.host .pause] } ∧
    HostNext .pause (pausedWith .none .pause) ∧ HostNext .go (pausedWith .decodeMiss .go) ∧
    (∀ code, (pausedWith .decodeMiss .go).haltCause ≠ .fault code) ∧
    HostNext .go (pausedWith (.fault .fetchOutOfRange) .go) ∧ HostNext .go (stoppedWith .go) :=
  ⟨⟨rfl, _, rfl⟩, ⟨rfl, _, rfl⟩, ⟨rfl, _, rfl⟩, ⟨rfl, _, rfl⟩, ⟨rfl, _, rfl⟩, fun _ => nofun, ⟨rfl, _, rfl⟩,
    ⟨rfl, _, rfl⟩⟩

theorem test_witness_CommandsWaitForTickEnd :
    running.burst = some 9 ∧ ({ running with moves := [.host .pause] } : State).moves = .host .pause :: [] ∧
    Command.pause ∈ [Command.startAsync, .cancel, .pause, .go, .step, .stopAndReset, .tryStore true, .tryStore false] ∧
    (∃ image, Command.load (some [1]) = .load image) ∧ (∃ p, Command.tryRestore none = .tryRestore p) ∧
    ({ running with moves := [.tickFire 2] } : State).moves = .tickFire 2 :: [] :=
  ⟨rfl, rfl, by decide, ⟨_, rfl⟩, ⟨_, rfl⟩, rfl⟩

theorem test_witness_FaultIsSticky :
    (pausedWith (.fault .memoryOutOfRange) .go).schedState = .paused ∧
    (pausedWith (.fault .memoryOutOfRange) .go).haltCause = .fault .memoryOutOfRange ∧
    (pausedWith (.fault .memoryOutOfRange) .go).burst = none ∧ Command.go ≠ .stopAndReset ∧ Command.go ≠ .cancel ∧
    ∀ p, Command.go ≠ .tryRestore p :=
  ⟨rfl, rfl, rfl, by decide, by decide, fun _ => nofun⟩

theorem test_witness_StopAndResetResets :
    HostNext .stopAndReset (pausedWith (.fault .stackUnderflow) .stopAndReset) ∧
    HostNext .cancel (pausedWith .none .cancel) ∧ (pausedWith .none .cancel).schedState ≠ .stopped ∧
    HostNext .cancel (stoppedWith .cancel) ∧ (stoppedWith .cancel).schedState = .stopped :=
  ⟨⟨rfl, _, rfl⟩, ⟨rfl, _, rfl⟩, by decide, ⟨rfl, _, rfl⟩, rfl⟩

theorem test_witness_ResetMeetsInvariant : Params.default.wf := by decide

/-- The invariant holds of a state in the middle of a tick, with memory written and a breakpoint set. -/
theorem test_witness_StepKeepsInvariant : CoreInv (atBreakpoint true) where
  memCanonical := by decide
  bpsCanonical := by decide
  ipfPositive := by decide
  paramsLegal := by decide
  notStepping := by decide
  runningUnhalted := fun _ => rfl
  stoppedIdle := nofun
  tickOpen := fun _ => .inl rfl

theorem test_witness_step_answers : ∃ t, step (atBreakpoint true) = .next t := ⟨_, rfl⟩

/-- The bound holds of a state with a return address at its limit and a snapshot to come. -/
theorem test_witness_StepKeepsPcBounded :
    PcInv { atEnd 0x00EE with pc := 0x10FE, moves := [.host (.tryRestore (some (snapshotOf State.reset)))] } where
  now := ⟨by decide, by simp [atEnd, withWord, withBytes]⟩
  later := by
    intro p hp
    simp only [List.mem_singleton, Move.host.injEq, Command.tryRestore.injEq, Option.some.injEq] at hp
    subst hp
    exact ⟨by decide, nofun⟩

theorem test_witness_LoadPlacesProgram :
    HostNext (.load (some [1])) (stoppedWith (.load (some [1]))) ∧
    Memory.wf (stoppedWith (.load none)).params.font (stoppedWith (.load none)).mem ∧
    (stoppedWith (.load none)).schedState = .stopped ∧ (List.replicate 3584 (0 : Byte)).length ≤ 3584 ∧
    3584 < (List.replicate 3585 (0 : Byte)).length ∧ (pausedWith .none (.load none)).schedState ≠ .stopped :=
  ⟨⟨rfl, _, rfl⟩, by decide, rfl, by rw [List.length_replicate], by rw [List.length_replicate]; decide, by decide⟩

theorem test_witness_UpdateKeyState :
    (stoppedWith (.updateKeyState 15 true)).moves = .host (.updateKeyState 15 true) :: [.core] ∧
    (15 : Reg).val = 15 ∧ 15 < 16 := ⟨rfl, rfl, by decide⟩

theorem test_witness_BreakpointCommands :
    (stoppedWith (.tryAddBreakpoint 0x204)).moves = .host (.tryAddBreakpoint 0x204) :: [.core] ∧
    after (stoppedWith (.tryAddBreakpoint 0x204)) (·.out) = some [.addBreakpointReply true 0x204] ∧
    after (stoppedWith (.tryAddBreakpoint 0x206)) (·.out) = some [.addBreakpointReply false 0x206] ∧
    after (stoppedWith (.tryAddBreakpoint 0x202)) (·.out) = some [.addBreakpointReply false 0x202] ∧
    (∃ e ∈ (stoppedWith (.tryRemoveBreakpoint 0x202)).bps, e.addr = 0x202) ∧
    ∀ e ∈ (stoppedWith (.tryRemoveBreakpoint 0x200)).bps, e.addr ≠ 0x200 := by decide

/-- A snapshot of the loaded program that can be restored, one of another program, one with an IPF of 0, and a memory
that is not in canonical form. -/
theorem test_witness_RestoreOverwritesOrRejects :
    (let p := snapshotOf (stoppedWith .go)
     let s := stoppedWith (.tryRestore (some p))
     HostNext (.tryRestore (some p)) s ∧ Memory.wf s.params.font p.mem ∧ p.progBytes = s.progBytes ∧ p.ipf ≠ 0 ∧
     p.progBytes ≠ State.reset.progBytes) ∧
    HostNext (.tryRestore none) (pausedWith .none (.tryRestore none)) ∧
    ({ snapshotOf State.reset with ipf := 0 } : Snapshot).ipf = 0 ∧
    ¬Memory.wf State.reset.params.font [(0x300, 0)] :=
  ⟨⟨⟨rfl, _, rfl⟩, by decide, rfl, by decide, by decide⟩, ⟨rfl, _, rfl⟩, rfl, by decide⟩

theorem test_witness_StoreThenRestore :
    let s0 := stoppedWith (.tryStore true)
    let s := { stoppedWith (.tryRestore (some (snapshotOf s0))) with pc := 0x206, lastKey := some 3 }
    CoreInv s0 ∧ s0.params = s.params ∧ s0.progBytes = s.progBytes ∧ HostNext (.tryStore true) s0 ∧
    HostNext (.tryRestore (some (snapshotOf s0))) s := by
  refine ⟨⟨by decide, by decide, by decide, by decide, by decide, nofun, fun _ => ⟨rfl, rfl⟩, nofun⟩, rfl, rfl,
    ⟨rfl, _, rfl⟩, rfl, _, rfl⟩

theorem test_witness_accessors :
    (stoppedWith .getMemory).moves = .host .getMemory :: [.core] ∧
    (stoppedWith (.getOpcode 0xFFE)).moves = .host (.getOpcode 0xFFE) :: [.core] ∧ 0xFFE + 1 < 4096 ∧
    4096 ≤ 0xFFF + 1 ∧ HostNext (.tryStore true) (stoppedWith (.tryStore true)) :=
  ⟨rfl, rfl, by decide, by decide, rfl, _, rfl⟩

/-- Each read, inside a tick too. -/
theorem test_witness_HostReadsChangeNothing :
    (stoppedWith (.getMnemonic 0x8124)).moves = .host (.getMnemonic 0x8124) :: [.core] ∧
    after { running with moves := [.host .getSchedState] } (·.out) = some [.schedStateView .running] ∧
    after (pausedWith .decodeMiss .getHaltCause) (·.out) = some [.haltCauseView .decodeMiss] :=
  ⟨rfl, by decide, by decide⟩

theorem test_witness_BootRunsFromEntryPoint : ([0x70, 0x01] : List Byte).length ≤ 3584 := by decide

end Sys2Proof.Tests
end

/-! ## The scope (00_scope.md): every step answers a next state, and no step changes a parameter -/

namespace Sys2Proof.Machine

/-- A move's result is a next state, neither a fault nor a refusal, whose parameters are `p`. -/
def AnswersWithParams (p : Params) (r : Result) : Prop := ∃ t, r = .next t ∧ t.params = p

@[simp] theorem answersWithParams_next (p : Params) (t : State) :
    AnswersWithParams p (.next t) ↔ t.params = p := by
  simp [AnswersWithParams]

/-! ### The instructions that can branch: their fault, or the stall of R164, keeps the parameters too -/

theorem execRet_answersWithParams (s : State) : AnswersWithParams s.params (execRet s) := by
  unfold execRet
  split <;> simp

theorem execDrw_answersWithParams (x y n : Reg) (s : State) : AnswersWithParams s.params (execDrw x y n s) := by
  unfold execDrw
  split
  · simp
  · rw [answersWithParams_next, takePartialFault_params]
    split <;> simp

theorem execBcd_answersWithParams (x : Reg) (s : State) : AnswersWithParams s.params (execBcd x s) := by
  unfold execBcd
  split <;> simp

theorem execStBlock_answersWithParams (x : Reg) (s : State) : AnswersWithParams s.params (execStBlock x s) := by
  unfold execStBlock
  split <;> simp

theorem execLdBlock_answersWithParams (x : Reg) (s : State) : AnswersWithParams s.params (execLdBlock x s) := by
  unfold execLdBlock
  split <;> simp

theorem execSkp_answersWithParams (x : Reg) (s : State) : AnswersWithParams s.params (execSkp x s) := by
  unfold execSkp
  split <;> simp

theorem execSknp_answersWithParams (x : Reg) (s : State) : AnswersWithParams s.params (execSknp x s) := by
  unfold execSknp
  split <;> simp

theorem execLdVxK_answersWithParams (x : Reg) (s : State) : AnswersWithParams s.params (execLdVxK x s) := by
  unfold execLdVxK
  split <;> simp

/-- No instruction is refused, and a fault is a next state (R213). -/
theorem exec_answersWithParams (i : Instr) (s : State) : AnswersWithParams s.params (exec i s) := by
  cases i with
  | ret => exact execRet_answersWithParams s
  | drw x y n => exact execDrw_answersWithParams x y n s
  | bcd x => exact execBcd_answersWithParams x s
  | stBlock x => exact execStBlock_answersWithParams x s
  | ldBlock x => exact execLdBlock_answersWithParams x s
  | skp x => exact execSkp_answersWithParams x s
  | sknp x => exact execSknp_answersWithParams x s
  | ldVxK x => exact execLdVxK_answersWithParams x s
  | orReg | andReg | xorReg | addReg | subReg | shr | subn | shl => exact ⟨_, rfl, commit_params ..⟩
  | sys | cls | jp | call | jpV0 | seImm | sneImm | seReg | sneReg | ldImm | addImm | ldReg | rnd | ldI | addI
  | ldF | ldVxDt | ldDtVx | ldStVx => exact ⟨_, rfl, rfl⟩

/-! ### The unit and the core's move -/

@[simp] theorem breakpointCheck_params (s : State) : (breakpointCheck s).2.params = s.params := by
  rw [breakpointCheck_frame]

@[simp] theorem frameEnd_params (s : State) : (frameEnd s).params = s.params := by
  rw [frameEnd_frame]

@[simp] theorem tickFire_params (b : Nat) (s : State) : (tickFire b s).params = s.params := by
  unfold tickFire
  split <;> rfl

theorem unit_answersWithParams (s : State) : AnswersWithParams s.params (unit s) := by
  rcases Nat.lt_or_ge s.pc.toNat 4096 with hp | hp
  · cases hb : (breakpointCheck s).1 with
    | true => simp [unit_breakpoint s hp hb]
    | false =>
      rw [unit_passes s hp hb]
      split
      · simp
      · split
        · simp
        · next i _ => simpa using exec_answersWithParams i (breakpointCheck s).2
  · simp [unit_pcPastEnd s hp]

theorem coreMove_answersWithParams (s : State) : AnswersWithParams s.params (coreMove s) := by
  unfold coreMove
  split
  · simp
  · split
    · exact unit_answersWithParams _
    · simp
  · split <;> simp

/-! ### The host's commands -/

@[simp] theorem startAsyncCommand_params (s : State) : (startAsyncCommand s).params = s.params := by
  unfold startAsyncCommand
  split <;> rfl

@[simp] theorem pauseCommand_params (s : State) : (pauseCommand s).params = s.params := by
  unfold pauseCommand
  split <;> rfl

@[simp] theorem goCommand_params (s : State) : (goCommand s).params = s.params := by
  unfold goCommand
  split <;> rfl

@[simp] theorem stopAndResetCommand_params (s : State) : (stopAndResetCommand s).params = s.params := rfl

@[simp] theorem cancelCommand_params (s : State) : (cancelCommand s).params = s.params := by
  unfold cancelCommand
  split <;> rfl

@[simp] theorem stepDone_params (s : State) : (stepDone s).params = s.params := by
  unfold stepDone
  split
  · split <;> simp
  · rfl

@[simp] theorem loadCommand_params (image : Option (List Byte)) (s : State) :
    (loadCommand image s).params = s.params := by
  unfold loadCommand
  split
  · rfl
  · split <;> rfl

@[simp] theorem updateKeyCommand_params (key : Nat) (pressed : Bool) (s : State) :
    (updateKeyCommand key pressed s).params = s.params := by
  unfold updateKeyCommand
  split
  · split <;> rfl
  · rfl

@[simp] theorem addBreakpointCommand_params (addr : Word) (s : State) :
    (addBreakpointCommand addr s).params = s.params := by
  unfold addBreakpointCommand
  dsimp only
  split <;> rfl

@[simp] theorem removeBreakpointCommand_params (addr : Word) (s : State) :
    (removeBreakpointCommand addr s).params = s.params := by
  unfold removeBreakpointCommand
  dsimp only
  split <;> rfl

@[simp] theorem storeCommand_params (ioOk : Bool) (s : State) : (storeCommand ioOk s).params = s.params := rfl

@[simp] theorem restoreFields_params (p : Snapshot) (s : State) : (restoreFields p s).params = s.params := rfl

@[simp] theorem restoreCommand_params (snapshot : Option Snapshot) (s : State) :
    (restoreCommand snapshot s).params = s.params := by
  unfold restoreCommand
  split
  · split <;> simp
  · simp

/-- `Step` is ignored outside Paused and after a fault (R185, R213). -/
theorem stepCommand_ignored (s : State) (h : ¬(s.schedState = .paused ∧ s.haltCause.isFault = false)) :
    stepCommand s = .next s :=
  if_neg h

theorem stepCommand_answersWithParams (s : State) : AnswersWithParams s.params (stepCommand s) := by
  by_cases h : s.schedState = .paused ∧ s.haltCause.isFault = false
  · obtain ⟨hpaused, hfault⟩ := h
    obtain ⟨u, hu, hparams⟩ := unit_answersWithParams (stepStart s)
    rw [stepCommand_of_unit s u hpaused hfault hu, answersWithParams_next, stepDone_params, hparams]
    rfl
  · simp [stepCommand_ignored s h]

theorem hostCommand_answersWithParams (c : Command) (s : State) :
    AnswersWithParams s.params (hostCommand c s) := by
  cases c with
  | step => exact stepCommand_answersWithParams s
  | startAsync | cancel | pause | go | stopAndReset | load | updateKeyState | tryAddBreakpoint
  | tryRemoveBreakpoint | tryStore | tryRestore => simp [hostCommand]
  | getSurface | getRegisters | getIRegister | getProgramCounter | getMemory | getOpcode | getMnemonic
  | getSchedState | getHaltCause => exact ⟨_, rfl, rfl⟩

/-! ### The step: a move of the core, the timer or the host (R208) -/

theorem step_answersWithParams (s : State) : AnswersWithParams s.params (step s) := by
  unfold step nextMove
  split
  · exact coreMove_answersWithParams s
  · exact coreMove_answersWithParams _
  · split
    · exact coreMove_answersWithParams s
    · simp
  · split
    · exact coreMove_answersWithParams s
    · exact hostCommand_answersWithParams _ _

/-- Settles O51: whichever move is next, it answers a next state with the parameters of the state before. -/
theorem stepAnswersAndKeepsParameters : Obligations.StepAnswersAndKeepsParameters :=
  step_answersWithParams

end Sys2Proof.Machine

/-! ## The state (10_state.md): reset, who writes what, and what every step keeps -/

namespace Sys2Proof.Machine

/-! ### Results -/

/-- `r` is a next state, neither a fault nor a refusal, and `P` holds of it. -/
def Answers (P : State → Prop) (r : Result) : Prop := ∃ t, r = .next t ∧ P t

@[simp] theorem answers_next (P : State → Prop) (t : State) : Answers P (.next t) ↔ P t := by
  simp [Answers]

theorem Answers.of_eq_next {P : State → Prop} {r : Result} {t : State} (h : Answers P r) (ht : r = .next t) :
    P t := by
  rwa [ht, answers_next] at h

/-! ### The instructions that can branch: their results, case by case -/

theorem execRet_cases (s : State) :
    execRet s = .next (takeFault .stackUnderflow s) ∨
    ∃ a rest, s.stack = a :: rest ∧ execRet s = .next (jumpTo a { s with stack := rest }) := by
  unfold execRet
  split
  · exact .inl rfl
  · next a rest h => exact .inr ⟨a, rest, h, rfl⟩

theorem execDrw_cases (x y n : Reg) (s : State) :
    (∃ flag surf, execDrw x y n s = .next (advance (setV vf flag { s with surf := surf }))) ∨
    execDrw x y n s = .next (takePartialFault .memoryOutOfRange (setV vf 0 s)) ∨
    execDrw x y n s = .next (takePartialFault .memoryOutOfRange s) := by
  unfold execDrw
  split
  · exact .inl ⟨_, _, rfl⟩
  · split
    · exact .inr (.inl rfl)
    · exact .inr (.inr rfl)

theorem execBcd_cases (x : Reg) (s : State) :
    execBcd x s = .next (advance (writeAtI (fun _ => true) (bcdDigits x s) s)) ∨
    execBcd x s = .next (takePartialFault .memoryOutOfRange (writeAtI (landed s) (bcdDigits x s) s)) := by
  unfold execBcd
  split
  · exact .inl rfl
  · exact .inr rfl

theorem execStBlock_cases (x : Reg) (s : State) :
    execStBlock x s = .next (advance (bumpI x (writeAtI (fun _ => true) (regBlock x s) s))) ∨
    execStBlock x s = .next (takePartialFault .memoryOutOfRange (writeAtI (landed s) (regBlock x s) s)) := by
  unfold execStBlock
  split
  · exact .inl rfl
  · exact .inr rfl

theorem execLdBlock_cases (x : Reg) (s : State) :
    execLdBlock x s = .next (advance (bumpI x (loadBlock (fun _ => true) x s))) ∨
    execLdBlock x s = .next (takePartialFault .memoryOutOfRange (loadBlock (landed s) x s)) := by
  unfold execLdBlock
  split
  · exact .inl rfl
  · exact .inr rfl

theorem execSkp_cases (x : Reg) (s : State) :
    (∃ c, execSkp x s = .next (skipIf c s)) ∨ execSkp x s = .next (takeFault .keyIndexOutOfRange s) := by
  unfold execSkp
  split
  · exact .inl ⟨_, rfl⟩
  · exact .inr rfl

theorem execSknp_cases (x : Reg) (s : State) :
    (∃ c, execSknp x s = .next (skipIf c s)) ∨ execSknp x s = .next (takeFault .keyIndexOutOfRange s) := by
  unfold execSknp
  split
  · exact .inl ⟨_, rfl⟩
  · exact .inr rfl

theorem execLdVxK_cases (x : Reg) (s : State) :
    execLdVxK x s = .next s ∨ ∃ b, execLdVxK x s = .next (advance (setV x b { s with lastKey := none })) := by
  unfold execLdVxK
  split
  · exact .inl rfl
  · exact .inr ⟨_, rfl⟩

/-! ### No instruction reads the control state (R34, R41, R227) -/

/-- Both results are next states, and these differ in nothing but the control state. -/
def SameButControl (c : State) (r r' : Result) : Prop :=
  ∃ t t', r = .next t ∧ r' = .next t' ∧ withControlOf c t = withControlOf c t'

/-- The order of result and flag is a parameter, and parameters are no control state. -/
theorem commit_withControlOf (c : State) (x : Reg) (r f : Byte) (s : State) :
    commit x r f (withControlOf c s) = withControlOf c (commit x r f s) := by
  unfold commit
  rw [show (withControlOf c s).params = s.params from rfl]
  split <;> rfl

theorem advance_commit_withControlOf (c : State) (x : Reg) (r f : Byte) (s : State) :
    withControlOf c (advance (commit x r f s)) = withControlOf c (advance (commit x r f (withControlOf c s))) := by
  rw [commit_withControlOf]
  rfl

theorem execRet_sameButControl (c s : State) :
    SameButControl c (execRet s) (execRet (withControlOf c s)) := by
  unfold execRet
  rw [show (withControlOf c s).stack = s.stack from rfl]
  split <;> exact ⟨_, _, rfl, rfl, rfl⟩

theorem execDrw_sameButControl (c : State) (x y n : Reg) (s : State) :
    SameButControl c (execDrw x y n s) (execDrw x y n (withControlOf c s)) := by
  have hspan : readSpan n.val (withControlOf c s) = readSpan n.val s := rfl
  have hstart : drwStart x y (withControlOf c s) = drwStart x y s := by
    rw [drwStart_eq, drwStart_eq]
    rfl
  have hlanded : landed (withControlOf c s) = landed s := rfl
  unfold execDrw
  rw [hspan, hstart, hlanded]
  split
  · exact ⟨_, _, rfl, rfl, rfl⟩
  · split <;> exact ⟨_, _, rfl, rfl, rfl⟩

theorem execBcd_sameButControl (c : State) (x : Reg) (s : State) :
    SameButControl c (execBcd x s) (execBcd x (withControlOf c s)) := by
  unfold execBcd
  rw [show (withControlOf c s).i = s.i from rfl]
  split <;> exact ⟨_, _, rfl, rfl, rfl⟩

theorem execStBlock_sameButControl (c : State) (x : Reg) (s : State) :
    SameButControl c (execStBlock x s) (execStBlock x (withControlOf c s)) := by
  unfold execStBlock
  rw [show (withControlOf c s).i = s.i from rfl]
  split <;> exact ⟨_, _, rfl, rfl, rfl⟩

theorem execLdBlock_sameButControl (c : State) (x : Reg) (s : State) :
    SameButControl c (execLdBlock x s) (execLdBlock x (withControlOf c s)) := by
  unfold execLdBlock
  rw [show (withControlOf c s).i = s.i from rfl]
  split <;> exact ⟨_, _, rfl, rfl, rfl⟩

theorem execSkp_sameButControl (c : State) (x : Reg) (s : State) :
    SameButControl c (execSkp x s) (execSkp x (withControlOf c s)) := by
  unfold execSkp
  rw [show keyIndex x (withControlOf c s) = keyIndex x s from rfl]
  split <;> exact ⟨_, _, rfl, rfl, rfl⟩

theorem execSknp_sameButControl (c : State) (x : Reg) (s : State) :
    SameButControl c (execSknp x s) (execSknp x (withControlOf c s)) := by
  unfold execSknp
  rw [show keyIndex x (withControlOf c s) = keyIndex x s from rfl]
  split <;> exact ⟨_, _, rfl, rfl, rfl⟩

theorem execLdVxK_sameButControl (c : State) (x : Reg) (s : State) :
    SameButControl c (execLdVxK x s) (execLdVxK x (withControlOf c s)) := by
  unfold execLdVxK
  rw [show (withControlOf c s).lastKey = s.lastKey from rfl]
  split <;> exact ⟨_, _, rfl, rfl, rfl⟩

/-- Replacing the control state before an instruction or after it comes to the same. -/
theorem exec_sameButControl (c : State) (i : Instr) (s : State) :
    SameButControl c (exec i s) (exec i (withControlOf c s)) := by
  cases i with
  | ret => exact execRet_sameButControl c s
  | drw x y n => exact execDrw_sameButControl c x y n s
  | bcd x => exact execBcd_sameButControl c x s
  | stBlock x => exact execStBlock_sameButControl c x s
  | ldBlock x => exact execLdBlock_sameButControl c x s
  | skp x => exact execSkp_sameButControl c x s
  | sknp x => exact execSknp_sameButControl c x s
  | ldVxK x => exact execLdVxK_sameButControl c x s
  | orReg | andReg | xorReg | addReg | subReg | shr | subn | shl =>
    exact ⟨_, _, rfl, rfl, advance_commit_withControlOf ..⟩
  | sys | cls | jp | call | jpV0 | seImm | sneImm | seReg | sneReg | ldImm | addImm | ldReg | rnd | ldI | addI
  | ldF | ldVxDt | ldDtVx | ldStVx => exact ⟨_, _, rfl, rfl, rfl⟩

/-- Settles O32: an instruction commutes with replacing the control state, arm by arm of the dispatch. -/
theorem programCannotSeeControlState : Obligations.ProgramCannotSeeControlState :=
  fun i s c => exec_sameButControl c i s

/-! ### Who writes what (R21 to R33, R51) -/

/-- Settles O30: every arm of the dispatch writes only the fields its own rule names. -/
theorem onlyNamedWriters : Obligations.OnlyNamedWriters := by
  intro i s t h
  cases i with
  | ret => rcases execRet_cases s with e | ⟨a, rest, -, e⟩ <;> cases e.symm.trans h <;> simp
  | drw x y n =>
    rcases execDrw_cases x y n s with ⟨flag, surf, e⟩ | e | e <;> cases e.symm.trans h <;> simp
  | bcd x => rcases execBcd_cases x s with e | e <;> cases e.symm.trans h <;> simp
  | stBlock x => rcases execStBlock_cases x s with e | e <;> cases e.symm.trans h <;> simp
  | ldBlock x => rcases execLdBlock_cases x s with e | e <;> cases e.symm.trans h <;> simp
  | skp x => rcases execSkp_cases x s with ⟨c, e⟩ | e <;> cases e.symm.trans h <;> simp
  | sknp x => rcases execSknp_cases x s with ⟨c, e⟩ | e <;> cases e.symm.trans h <;> simp
  | ldVxK x => rcases execLdVxK_cases x s with e | ⟨b, e⟩ <;> cases e.symm.trans h <;> simp
  -- each writes one of the listed fields, which names it
  | cls | call | ldI | addI | ldF | ldDtVx | ldStVx => cases h; simp
  -- registers, PC and the count of free values only
  | sys | jp | jpV0 | seImm | sneImm | seReg | sneReg | ldImm | addImm | ldReg | rnd | ldVxDt | orReg | andReg
  | xorReg | addReg | subReg | shr | subn | shl => cases h; simp

/-- A register write to another register leaves VF alone. -/
theorem getV_vf_setV (x : Reg) (b : Byte) (s : State) (hx : (x == vf) = false) : getV vf (setV x b s) = getV vf s :=
  getV_setV_other x vf b s (by simpa using Ne.symm (ne_of_beq_false hx))

/-- A block load that ends below VF leaves VF alone, whichever of its reads land. -/
theorem getV_vf_loadBlock (pick : Nat → Bool) (x : Reg) (s : State) (hx : (x == vf) = false) :
    getV vf (loadBlock pick x s) = getV vf s := by
  have hne : x ≠ vf := ne_of_beq_false hx
  rw [getV_loadBlock, if_neg]
  rintro ⟨hle, -⟩
  exact hne (Fin.le_antisymm (Fin.le_last x) hle)

theorem exec_keepsVf (i : Instr) (s : State) (hw : writesVf i = false) :
    Answers (fun t => getV vf t = getV vf s) (exec i s) := by
  cases i with
  | orReg | andReg | xorReg | addReg | subReg | shr | subn | shl | drw | addI => cases hw
  | ldImm x | addImm x | ldReg x | rnd x | ldVxDt x => exact ⟨_, rfl, getV_vf_setV x _ _ hw⟩
  | ldVxK x =>
    rcases execLdVxK_cases x s with e | ⟨b, e⟩
    · exact ⟨_, e, rfl⟩
    · exact ⟨_, e, getV_vf_setV x b _ hw⟩
  | ldBlock x =>
    rcases execLdBlock_cases x s with e | e <;> exact ⟨_, e, by simp [getV_vf_loadBlock _ x s hw]⟩
  | ret => rcases execRet_cases s with e | ⟨a, rest, -, e⟩ <;> exact ⟨_, e, rfl⟩
  | bcd x => rcases execBcd_cases x s with e | e <;> exact ⟨_, e, by simp⟩
  | stBlock x => rcases execStBlock_cases x s with e | e <;> exact ⟨_, e, by simp⟩
  | skp x => rcases execSkp_cases x s with ⟨c, e⟩ | e <;> exact ⟨_, e, rfl⟩
  | sknp x => rcases execSknp_cases x s with ⟨c, e⟩ | e <;> exact ⟨_, e, rfl⟩
  | sys | cls | jp | call | jpV0 | seImm | sneImm | seReg | sneReg | ldI | ldF | ldDtVx | ldStVx =>
    exact ⟨_, rfl, rfl⟩

/-- Settles O31: a register write reaches VF only where VF is its destination. -/
theorem vfWritersAreListed : Obligations.VfWritersAreListed := by
  intro i s t hw ht
  have h := exec_keepsVf i s hw
  exact h.of_eq_next ht

/-! ### How an instruction ends: the control state and PC (R13, R34, R213) -/

/-- `u` has the control state, the parameters and the PC of `s`. -/
structure KeepsControl (s u : State) : Prop where
  schedState : u.schedState = s.schedState
  haltCause : u.haltCause = s.haltCause
  out : u.out = s.out
  ipf : u.ipf = s.ipf
  beep : u.beep = s.beep
  frameCount : u.frameCount = s.frameCount
  bps : u.bps = s.bps
  progCount : u.progCount = s.progCount
  progBytes : u.progBytes = s.progBytes
  params : u.params = s.params
  burst : u.burst = s.burst
  moves : u.moves = s.moves
  pc : u.pc = s.pc

/-- The five ends of an instruction, each after writes that keep the control state: it stalls (R164), advances, skips,
jumps, to a target within the bound of R26 or popped from the stack, or takes a fault. -/
inductive Runs (s : State) : State → Prop where
  | stalls : Runs s s
  | advances (u : State) (hu : KeepsControl s u) : Runs s (advance u)
  | skips (c : Bool) : Runs s (skipIf c s)
  | jumps (w : Word) (u : State) (hu : KeepsControl s u) (hw : w.toNat ≤ 0x10FE ∨ w ∈ s.stack) : Runs s (jumpTo w u)
  | faults (code : Fault) (u : State) (hu : KeepsControl s u) : Runs s (takeFault code u)

theorem keepsControl_refl (s : State) : KeepsControl s s := by constructor <;> rfl

theorem keepsControl_setV (x : Reg) (b : Byte) (s : State) : KeepsControl s (setV x b s) := by
  constructor <;> rfl

theorem keepsControl_writeAtI (pick : Nat → Bool) (bs : List Byte) (s : State) :
    KeepsControl s (writeAtI pick bs s) := by
  constructor <;> rfl

theorem keepsControl_loadBlock (pick : Nat → Bool) (x : Reg) (s : State) : KeepsControl s (loadBlock pick x s) := by
  constructor <;> simp

theorem KeepsControl.bumpI {s u : State} (h : KeepsControl s u) (x : Reg) : KeepsControl s (bumpI x u) := by
  constructor <;> simp [h.schedState, h.haltCause, h.out, h.ipf, h.beep, h.frameCount, h.bps, h.progCount, h.progBytes,
    h.params, h.burst, h.moves, h.pc]

/-- The free value that a fault in the middle of a block uses up is no control state. -/
theorem Runs.faultsPartly {s u : State} (code : Fault) (hu : KeepsControl s u) :
    Runs s (takePartialFault code u) :=
  .faults code _ ⟨hu.schedState, hu.haltCause, hu.out, hu.ipf, hu.beep, hu.frameCount, hu.bps, hu.progCount,
    hu.progBytes, hu.params, hu.burst, hu.moves, hu.pc⟩

theorem keepsControl_commit (x : Reg) (r f : Byte) (s : State) : KeepsControl s (commit x r f s) := by
  constructor <;> simp

theorem addrOf_toNat (nnn : Addr12) : (addrOf nnn).toNat = nnn.toNat := by
  have := nnn.isLt
  simp only [addrOf, BitVec.toNat_setWidth]
  omega

/-- A jump to an immediate stays below 0x1000 (R102, R103). -/
theorem addrOf_le (nnn : Addr12) : (addrOf nnn).toNat ≤ 0x10FE := by
  have := nnn.isLt
  rw [addrOf_toNat]
  omega

/-- The highest target of JP V0 is 0xFFF + 0xFF (R108). -/
theorem v0Target_le (nnn : Addr12) (s : State) : (v0Target nnn s).toNat ≤ 0x10FE := by
  have := nnn.isLt
  have := (getV 0 s).isLt
  simp only [v0Target, BitVec.toNat_add, addrOf_toNat, BitVec.toNat_setWidth]
  omega

theorem exec_runs (i : Instr) (s : State) : Answers (Runs s) (exec i s) := by
  have keeps : KeepsControl s s := keepsControl_refl s
  cases i with
  | ret =>
    rcases execRet_cases s with e | ⟨a, rest, hs, e⟩
    · exact ⟨_, e, .faults _ s keeps⟩
    · exact ⟨_, e, .jumps a _ (by constructor <;> rfl) (.inr (by simp [hs]))⟩
  | drw x y n =>
    rcases execDrw_cases x y n s with ⟨flag, surf, e⟩ | e | e
    · exact ⟨_, e, .advances _ (by constructor <;> rfl)⟩
    · exact ⟨_, e, .faultsPartly _ (keepsControl_setV ..)⟩
    · exact ⟨_, e, .faultsPartly _ keeps⟩
  | bcd x =>
    rcases execBcd_cases x s with e | e
    · exact ⟨_, e, .advances _ (keepsControl_writeAtI ..)⟩
    · exact ⟨_, e, .faultsPartly _ (keepsControl_writeAtI ..)⟩
  | stBlock x =>
    rcases execStBlock_cases x s with e | e
    · exact ⟨_, e, .advances _ ((keepsControl_writeAtI ..).bumpI x)⟩
    · exact ⟨_, e, .faultsPartly _ (keepsControl_writeAtI ..)⟩
  | ldBlock x =>
    rcases execLdBlock_cases x s with e | e
    · exact ⟨_, e, .advances _ ((keepsControl_loadBlock ..).bumpI x)⟩
    · exact ⟨_, e, .faultsPartly _ (keepsControl_loadBlock ..)⟩
  | skp x =>
    rcases execSkp_cases x s with ⟨c, e⟩ | e
    · exact ⟨_, e, .skips c⟩
    · exact ⟨_, e, .faults _ s keeps⟩
  | sknp x =>
    rcases execSknp_cases x s with ⟨c, e⟩ | e
    · exact ⟨_, e, .skips c⟩
    · exact ⟨_, e, .faults _ s keeps⟩
  | ldVxK x =>
    rcases execLdVxK_cases x s with e | ⟨b, e⟩
    · exact ⟨_, e, .stalls⟩
    · exact ⟨_, e, .advances _ (by constructor <;> rfl)⟩
  | jp nnn | call nnn => exact ⟨_, rfl, .jumps _ _ (by constructor <;> rfl) (.inl (addrOf_le nnn))⟩
  | jpV0 nnn => exact ⟨_, rfl, .jumps _ s keeps (.inl (v0Target_le nnn s))⟩
  | seImm | sneImm | seReg | sneReg => exact ⟨_, rfl, .skips _⟩
  | orReg | andReg | xorReg | addReg | subReg | shr | subn | shl =>
    exact ⟨_, rfl, .advances _ (keepsControl_commit ..)⟩
  | sys | cls | ldImm | addImm | ldReg | rnd | ldI | addI | ldF | ldVxDt | ldDtVx | ldStVx =>
    exact ⟨_, rfl, .advances _ (by constructor <;> rfl)⟩

/-- Settles O33: of the five ends of an instruction only the fault touches the control state. -/
theorem executesOrTakesAFault : Obligations.ExecutesOrTakesAFault := by
  intro i s
  obtain ⟨t, ht, hruns⟩ := exec_runs i s
  refine ⟨t, ht, ?_⟩
  cases hruns with
  | stalls => simp
  | skips c => simp
  | advances u hu =>
    simp [hu.schedState, hu.haltCause, hu.out, hu.ipf, hu.beep, hu.frameCount, hu.bps, hu.progCount, hu.progBytes,
      hu.params, hu.burst, hu.moves]
  | jumps w u hu hw =>
    simp [hu.schedState, hu.haltCause, hu.out, hu.ipf, hu.beep, hu.frameCount, hu.bps, hu.progCount, hu.progBytes,
      hu.params, hu.burst, hu.moves]
  | faults code u hu =>
    simp [hu.out, hu.ipf, hu.beep, hu.frameCount, hu.bps, hu.progCount, hu.progBytes, hu.params, hu.burst, hu.moves,
      hu.pc]

/-! ### The two parts of the invariant: the data and the schedule -/

/-- The part of `CoreInv` about memory, the breakpoint table, IPF and the parameters. -/
structure DataOk (p : Params) (mem : Memory) (bps : BpTable) (ipf : Nat) : Prop where
  mem : Memory.wf p.font mem
  bps : BpTable.wf bps
  ipf : 1 ≤ ipf
  params : p.wf

/-- The part of `CoreInv` about SCHED_STATE, HALT_CAUSE and the tick in progress, by the situations it admits. -/
inductive ScheduleOk : SchedState → HaltCause → Option Nat → Prop where
  | stopped : ScheduleOk .stopped .none none
  | running (burst : Option Nat) : ScheduleOk .running .none burst
  | paused (cause : HaltCause) : ScheduleOk .paused cause none
  | halted (cause : HaltCause) (burst : Option Nat) (h : cause ≠ .none) : ScheduleOk .paused cause burst

/-- `CoreInv` in its two parts, each a predicate of the fields it reads: an update of other fields keeps it as it
stands. -/
abbrev Sound (s : State) : Prop :=
  DataOk s.params s.mem s.bps s.ipf ∧ ScheduleOk s.schedState s.haltCause s.burst

theorem scheduleOk_iff (st : SchedState) (cause : HaltCause) (burst : Option Nat) :
    ScheduleOk st cause burst ↔
      st ≠ .steppingFrame ∧ (st = .running → cause = .none) ∧ (st = .stopped → cause = .none ∧ burst = none) ∧
      (burst ≠ none → st = .running ∨ (st = .paused ∧ cause ≠ .none)) := by
  constructor
  · rintro (_ | _ | _ | ⟨_, _, h⟩) <;> simp [*]
  · rintro ⟨hstepping, hrunning, hstopped, hopen⟩
    cases st with
    | stopped => obtain ⟨rfl, rfl⟩ := hstopped rfl; exact .stopped
    | running => rw [hrunning rfl]; exact .running burst
    | paused =>
      cases burst with
      | none => exact .paused cause
      | some k => exact .halted cause _ (by simpa using hopen)
    | steppingFrame => exact absurd rfl hstepping

theorem coreInv_iff_sound (s : State) : CoreInv s ↔ Sound s := by
  rw [Sound, scheduleOk_iff]
  constructor
  · intro h
    exact ⟨⟨h.memCanonical, h.bpsCanonical, h.ipfPositive, h.paramsLegal⟩,
      h.notStepping, h.runningUnhalted, h.stoppedIdle, h.tickOpen⟩
  · rintro ⟨d, hstepping, hrunning, hstopped, hopen⟩
    exact ⟨d.mem, d.bps, d.ipf, d.params, hstepping, hrunning, hstopped, hopen⟩

/-- Between ticks Paused is admitted with any record of a halt. -/
theorem scheduleOk_paused (cause : HaltCause) {burst : Option Nat} (hidle : burst = none) :
    ScheduleOk .paused cause burst :=
  hidle ▸ .paused cause

/-- While Running the tick in progress is free. -/
theorem ScheduleOk.setBurst {st : SchedState} {cause : HaltCause} {burst : Option Nat} (h : ScheduleOk st cause burst)
    (hrun : st = .running) (burst' : Option Nat) : ScheduleOk st cause burst' := by
  subst hrun
  cases h
  exact .running burst'

theorem ScheduleOk.endTick {st : SchedState} {cause : HaltCause} {burst : Option Nat} (h : ScheduleOk st cause burst) :
    ScheduleOk st cause none := by
  cases h with
  | stopped => exact .stopped
  | running => exact .running none
  | paused => exact .paused cause
  | halted => exact .paused cause

/-! ### Reset (R44) -/

/-- Settles O45: the fields of the reset state are written out in its definition, and memory lists no byte there. -/
theorem resetState : Obligations.ResetState := by
  intro p
  have hfont : ∀ a (h : a < 80), readMem (State.resetWith p) a = p.font[a] := fun a h => dif_pos h
  have hzero : ∀ a, 80 ≤ a → readMem (State.resetWith p) a = 0 := fun a h => dif_neg (by omega)
  have hblank : ∀ x y, x < 64 → y < 32 → getPixel (State.resetWith p).surf x y = false :=
    fun x y _ _ => getPixel_blank x y
  have hregs : ∀ r, getV r (State.resetWith p) = 0 := by simp [getV, State.resetWith]
  exact ⟨hregs, rfl, rfl, rfl, rfl, rfl, hfont, hzero, hblank, rfl, rfl, rfl, rfl, rfl, rfl, rfl, rfl, rfl, rfl⟩

theorem resetWith_sound (p : Params) (hp : p.wf) : Sound (State.resetWith p) :=
  ⟨⟨⟨.nil, nofun⟩, ⟨.nil, nofun⟩, hp, hp⟩, .stopped⟩

/-- Settles O48: nothing listed in memory or in the breakpoint table, and Stopped without a tick. -/
theorem resetMeetsInvariant : Obligations.ResetMeetsInvariant :=
  fun p hp => (coreInv_iff_sound _).2 (resetWith_sound p hp)

/-! ### What an instruction and a unit keep -/

/-- Bytes are written only by block writes, which keep the canonical form. -/
theorem exec_memWf {i : Instr} {s t : State} (h : Memory.wf s.params.font s.mem) (ht : exec i s = .next t) :
    Memory.wf s.params.font t.mem := by
  by_cases hm : t.mem = s.mem
  · rwa [hm]
  · obtain ⟨-, -, -, -, -, -, -, hwriters⟩ := onlyNamedWriters i s t ht
    obtain ⟨x, rfl | rfl⟩ := hwriters hm
    · rcases execBcd_cases x s with e | e <;> cases e.symm.trans ht <;> exact Memory.writeWhere_wf _ _ _ h
    · rcases execStBlock_cases x s with e | e <;> cases e.symm.trans ht <;> exact Memory.writeWhere_wf _ _ _ h

/-- Where the unit executes an instruction, PC stays within the bound of R26. -/
theorem Runs.pc_le {s t : State} (h : Runs s t) (hpc : s.pc.toNat ≤ 0xFFE) (hs : ∀ a ∈ s.stack, a.toNat ≤ 0x1000) :
    t.pc.toNat ≤ 0x10FE := by
  cases h with
  | stalls => omega
  | advances u hu => rw [advance_pc, hu.pc, BitVec.toNat_add]; simp; omega
  | skips c => rw [skipIf_pc]; split <;> rw [BitVec.toNat_add] <;> simp <;> omega
  | jumps w u hu hw => exact hw.elim id fun hmem => (hs w hmem).trans (by decide)
  | faults code u hu => rw [takeFault_pc, hu.pc]; omega

/-- CALL pushes at most 0x1000 (R103), and RET takes an entry away. -/
theorem exec_stack_le {i : Instr} {s t : State} (hpc : s.pc.toNat ≤ 0xFFE) (hs : ∀ a ∈ s.stack, a.toNat ≤ 0x1000)
    (ht : exec i s = .next t) : ∀ a ∈ t.stack, a.toNat ≤ 0x1000 := by
  by_cases hstack : t.stack = s.stack
  · rwa [hstack]
  · obtain ⟨-, -, hwriters, -⟩ := onlyNamedWriters i s t ht
    rcases hwriters hstack with ⟨nnn, rfl⟩ | rfl
    · cases ht
      have hpush : (s.pc + 2).toNat ≤ 0x1000 := by rw [BitVec.toNat_add]; simp; omega
      exact List.forall_mem_cons.2 ⟨hpush, hs⟩
    · rcases execRet_cases s with e | ⟨a, rest, hcons, e⟩ <;> cases e.symm.trans ht
      · exact hs
      · exact fun b hb => hs b (hcons ▸ List.mem_cons_of_mem a hb)

/-- `t` comes after `s` by part of a unit: the data and the bounds of PC and the stack are kept, the burst and the
moves are as before, and the scheduler goes on or has halted with a cause. -/
structure UnitKeeps (s t : State) : Prop where
  data : DataOk s.params s.mem s.bps s.ipf → DataOk t.params t.mem t.bps t.ipf
  pc : pcBounded s.pc s.stack → pcBounded t.pc t.stack
  burst : t.burst = s.burst
  moves : t.moves = s.moves
  schedule : (t.schedState = s.schedState ∧ t.haltCause = s.haltCause) ∨
    (t.schedState = .paused ∧ t.haltCause ≠ .none)

theorem UnitKeeps.trans {s t u : State} (h : UnitKeeps s t) (h' : UnitKeeps t u) : UnitKeeps s u where
  data := h'.data ∘ h.data
  pc := h'.pc ∘ h.pc
  burst := h'.burst.trans h.burst
  moves := h'.moves.trans h.moves
  schedule := by
    rcases h'.schedule with ⟨hs, hc⟩ | halted
    · rw [hs, hc]
      exact h.schedule
    · exact .inr halted

theorem halt_unitKeeps (cause : HaltCause) (s : State) (hc : cause ≠ .none) : UnitKeeps s (halt cause s) :=
  ⟨id, id, rfl, rfl, .inr ⟨rfl, hc⟩⟩

theorem takeFault_unitKeeps (code : Fault) (s : State) : UnitKeeps s (takeFault code s) :=
  ⟨id, id, rfl, rfl, .inr ⟨rfl, nofun⟩⟩

theorem breakpointCheck_unitKeeps (s : State) : UnitKeeps s (breakpointCheck s).2 := by
  have hwf := breakpointCheck_wf s
  rw [breakpointCheck_frame] at hwf ⊢
  exact ⟨fun d => ⟨d.mem, hwf d.bps, d.ipf, d.params⟩, id, rfl, rfl, .inl ⟨rfl, rfl⟩⟩

theorem Runs.control {s t : State} (h : Runs s t) :
    t.params = s.params ∧ t.bps = s.bps ∧ t.ipf = s.ipf ∧ t.burst = s.burst ∧ t.moves = s.moves ∧
    ((t.schedState = s.schedState ∧ t.haltCause = s.haltCause) ∨ (t.schedState = .paused ∧ t.haltCause ≠ .none)) := by
  cases h with
  | stalls => simp
  | skips c => simp
  | advances u hu => simp [hu.params, hu.bps, hu.ipf, hu.burst, hu.moves, hu.schedState, hu.haltCause]
  | jumps w u hu hw => simp [hu.params, hu.bps, hu.ipf, hu.burst, hu.moves, hu.schedState, hu.haltCause]
  | faults code u hu => simp [hu.params, hu.bps, hu.ipf, hu.burst, hu.moves]

theorem exec_unitKeeps (i : Instr) (s : State) (hpc : s.pc.toNat ≤ 0xFFE) : Answers (UnitKeeps s) (exec i s) := by
  obtain ⟨t, ht, hruns⟩ := exec_runs i s
  obtain ⟨hparams, hbps, hipf, hburst, hmoves, hschedule⟩ := hruns.control
  refine ⟨t, ht, fun d => ?_, fun ⟨_, hs⟩ => ⟨hruns.pc_le hpc hs, exec_stack_le hpc hs ht⟩, hburst, hmoves, hschedule⟩
  rw [hparams, hbps, hipf]
  exact ⟨exec_memWf d.mem ht, d.bps, d.ipf, d.params⟩

theorem unit_unitKeeps (s : State) : Answers (UnitKeeps s) (unit s) := by
  have hcheck := breakpointCheck_unitKeeps s
  rcases Nat.lt_or_ge s.pc.toNat 4096 with hp | hp
  · cases hb : (breakpointCheck s).1 with
    | true => exact ⟨_, unit_breakpoint s hp hb, hcheck.trans (halt_unitKeeps _ _ nofun)⟩
    | false =>
      rw [unit_passes s hp hb]
      split
      · exact ⟨_, rfl, hcheck.trans (takeFault_unitKeeps _ _)⟩
      · next hend =>
        split
        · exact ⟨_, rfl, hcheck.trans (halt_unitKeeps _ _ nofun)⟩
        · next i _ =>
          have hpc : (breakpointCheck s).2.pc.toNat ≤ 0xFFE := by
            rw [breakpointCheck_frame]
            show s.pc.toNat ≤ 0xFFE
            omega
          obtain ⟨t, ht, hkeeps⟩ := exec_unitKeeps i _ hpc
          exact ⟨t, ht, hcheck.trans hkeeps⟩
  · exact ⟨_, unit_pcPastEnd s hp, halt_unitKeeps _ _ nofun⟩

/-! ### What a step keeps, move by move (R208) -/

/-- A property that each kind of move keeps is kept by every step. Between ticks is where `burst` is none; a command
meets a tick in progress only where it fits there. -/
theorem step_keeps {P : State → Prop}
    (hdrop : ∀ s, P s → P { s with moves := s.moves.tail })
    (hcore : ∀ s, P s → Answers P (coreMove s))
    (htick : ∀ b s, P s → P (tickFire b s))
    (hhost : ∀ c s rest, P s → s.moves = .host c :: rest → (c.fitsInTick = true ∨ s.burst = none) →
      Answers P (hostCommand c { s with moves := rest })) :
    ∀ s, P s → Answers P (step s) := by
  intro s h
  have hrest : ∀ m rest, s.moves = m :: rest → P { s with moves := rest } := by
    intro m rest hm
    simpa [hm] using hdrop s h
  unfold step nextMove
  split
  · exact hcore s h
  · next rest hm => exact hcore _ (hrest _ rest hm)
  · next b rest hm =>
    split
    · exact hcore s h
    · exact ⟨_, rfl, htick b _ (hrest _ rest hm)⟩
  · next c rest hm =>
    split
    · exact hcore s h
    · next hfits =>
      refine hhost c s rest h hm ?_
      by_cases hc : c.fitsInTick = true
      · exact .inl hc
      · exact .inr (by simpa [hc] using hfits)

/-! ### What the host's commands leave unchanged -/

theorem startAsyncCommand_frame (s : State) :
    startAsyncCommand s = { s with
      schedState := (startAsyncCommand s).schedState, haltCause := (startAsyncCommand s).haltCause } := by
  unfold startAsyncCommand
  split <;> rfl

theorem pauseCommand_frame (s : State) : pauseCommand s = { s with schedState := (pauseCommand s).schedState } := by
  unfold pauseCommand
  split <;> rfl

theorem goCommand_frame (s : State) :
    goCommand s = { s with schedState := (goCommand s).schedState, haltCause := (goCommand s).haltCause } := by
  unfold goCommand
  split <;> rfl

theorem loadCommand_frame (image : Option (List Byte)) (s : State) :
    loadCommand image s = { s with
      mem := (loadCommand image s).mem, progCount := (loadCommand image s).progCount,
      progBytes := (loadCommand image s).progBytes, out := (loadCommand image s).out } := by
  unfold loadCommand
  split
  · rfl
  · split <;> rfl

theorem updateKeyCommand_frame (key : Nat) (pressed : Bool) (s : State) :
    updateKeyCommand key pressed s = { s with
      keys := (updateKeyCommand key pressed s).keys, lastKey := (updateKeyCommand key pressed s).lastKey } := by
  unfold updateKeyCommand
  split
  · split <;> rfl
  · rfl

theorem addBreakpointCommand_frame (addr : Word) (s : State) :
    addBreakpointCommand addr s = { s with
      bps := (addBreakpointCommand addr s).bps, out := (addBreakpointCommand addr s).out } := by
  unfold addBreakpointCommand
  dsimp only
  split <;> rfl

theorem removeBreakpointCommand_frame (addr : Word) (s : State) :
    removeBreakpointCommand addr s = { s with
      bps := (removeBreakpointCommand addr s).bps, out := (removeBreakpointCommand addr s).out } := by
  unfold removeBreakpointCommand
  dsimp only
  split <;> rfl

/-- The end of a `Step` leaves the scheduler Paused, whatever its unit did (R185). -/
theorem stepDone_frame (s : State) :
    stepDone s = { s with
      dt := (stepDone s).dt, st := (stepDone s).st, beep := (stepDone s).beep, out := (stepDone s).out,
      frameCount := (stepDone s).frameCount, schedState := .paused } := by
  unfold stepDone
  split
  · split
    · rw [frameEnd_frame]
    · rfl
  · rfl

theorem tickFire_frame (b : Nat) (s : State) : tickFire b s = { s with burst := (tickFire b s).burst } := by
  unfold tickFire
  split <;> rfl

/-- `Step` is ignored, or runs one unit and then its end (R185). -/
theorem stepCommand_cases (s : State) :
    stepCommand s = .next s ∨ ∃ u, UnitKeeps (stepStart s) u ∧ stepCommand s = .next (stepDone u) := by
  by_cases h : s.schedState = .paused ∧ s.haltCause.isFault = false
  · obtain ⟨hpaused, hfault⟩ := h
    obtain ⟨u, hu, hkeeps⟩ := unit_unitKeeps (stepStart s)
    exact .inr ⟨u, hkeeps, stepCommand_of_unit s u hpaused hfault hu⟩
  · exact .inl (stepCommand_ignored s h)

/-! ### The bounds of PC and the stack (R26, R103) -/

theorem coreMove_pcInv {s : State} (h : PcInv s) : Answers PcInv (coreMove s) := by
  have hframeEnd : PcInv (frameEnd { s with burst := none }) := by
    rw [frameEnd_frame]
    exact ⟨h.now, h.later⟩
  unfold coreMove
  split
  · exact ⟨_, rfl, hframeEnd⟩
  · next k _ =>
    split
    · obtain ⟨t, ht, hkeeps⟩ := unit_unitKeeps { s with burst := some k }
      exact ⟨t, ht, hkeeps.pc h.now, by rw [hkeeps.moves]; exact h.later⟩
    · exact ⟨_, rfl, hframeEnd⟩
  · split
    · refine ⟨_, rfl, ?_⟩
      rw [tickFire_frame]
      exact ⟨h.now, h.later⟩
    · exact ⟨s, rfl, h⟩

theorem stopAndResetCommand_pcInv {s : State} (h : PcInv s) : PcInv (stopAndResetCommand s) :=
  ⟨⟨show (0x200 : Word).toNat ≤ 0x10FE by decide, nofun⟩, h.later⟩

theorem cancelCommand_pcInv {s : State} (h : PcInv s) : PcInv (cancelCommand s) := by
  unfold cancelCommand
  split
  · exact h
  · exact stopAndResetCommand_pcInv h

theorem pauseCommand_pcInv {s : State} (h : PcInv s) : PcInv (pauseCommand s) := by
  rw [pauseCommand_frame]
  exact ⟨h.now, h.later⟩

theorem stepCommand_pcInv {s : State} (h : PcInv s) : Answers PcInv (stepCommand s) := by
  rcases stepCommand_cases s with e | ⟨u, hkeeps, e⟩
  · exact ⟨s, e, h⟩
  · refine ⟨_, e, ?_⟩
    rw [stepDone_frame]
    exact ⟨hkeeps.pc h.now, fun p hp => h.later p (hkeeps.moves ▸ hp)⟩

/-- A restore takes PC and the stack from its snapshot, which must meet the bounds (assumption 12). -/
theorem restoreCommand_pcInv {s : State} (h : PcInv s) (snapshot : Option Snapshot)
    (hsnap : ∀ p, snapshot = some p → pcBounded p.pc p.stack) : PcInv (restoreCommand snapshot s) := by
  have hpause := pauseCommand_pcInv h
  unfold restoreCommand
  generalize pauseCommand s = t at hpause ⊢
  split
  · next p =>
    split
    · exact ⟨hsnap p rfl, hpause.later⟩
    · exact ⟨hpause.now, hpause.later⟩
  · exact ⟨hpause.now, hpause.later⟩

theorem hostCommand_pcInv {s : State} (h : PcInv s) (c : Command)
    (hsnap : ∀ p, c = .tryRestore (some p) → pcBounded p.pc p.stack) : Answers PcInv (hostCommand c s) := by
  cases c with
  | step => exact stepCommand_pcInv h
  | cancel => exact ⟨_, rfl, cancelCommand_pcInv h⟩
  | stopAndReset => exact ⟨_, rfl, stopAndResetCommand_pcInv h⟩
  | pause => exact ⟨_, rfl, pauseCommand_pcInv h⟩
  | tryRestore snapshot => exact ⟨_, rfl, restoreCommand_pcInv h snapshot fun p hp => hsnap p (hp ▸ rfl)⟩
  | startAsync => exact ⟨_, rfl, by rw [startAsyncCommand_frame]; exact ⟨h.now, h.later⟩⟩
  | go => exact ⟨_, rfl, by rw [goCommand_frame]; exact ⟨h.now, h.later⟩⟩
  | load image => exact ⟨_, rfl, by rw [loadCommand_frame]; exact ⟨h.now, h.later⟩⟩
  | updateKeyState key pressed => exact ⟨_, rfl, by rw [updateKeyCommand_frame]; exact ⟨h.now, h.later⟩⟩
  | tryAddBreakpoint addr => exact ⟨_, rfl, by rw [addBreakpointCommand_frame]; exact ⟨h.now, h.later⟩⟩
  | tryRemoveBreakpoint addr => exact ⟨_, rfl, by rw [removeBreakpointCommand_frame]; exact ⟨h.now, h.later⟩⟩
  | tryStore | getSurface | getRegisters | getIRegister | getProgramCounter | getMemory | getOpcode | getMnemonic
  | getSchedState | getHaltCause => exact ⟨_, rfl, h.now, h.later⟩

theorem step_pcInv : ∀ s, PcInv s → Answers PcInv (step s) := by
  have hdrop : ∀ s, PcInv s → PcInv { s with moves := s.moves.tail } :=
    fun s h => ⟨h.now, fun p hp => h.later p (List.mem_of_mem_tail hp)⟩
  refine step_keeps hdrop (fun s h => coreMove_pcInv h) (fun b s h => ?_) (fun c s rest h hm _ => ?_)
  · rw [tickFire_frame]
    exact ⟨h.now, h.later⟩
  · have hsnap : ∀ p, c = .tryRestore (some p) → pcBounded p.pc p.stack :=
      fun p hc => h.later p (by simp [hm, hc])
    have hrest : PcInv { s with moves := rest } := by simpa [hm] using hdrop s h
    exact hostCommand_pcInv hrest c hsnap

/-- Settles O50: a unit executes at 0xFFE or below, so that no PC it leaves is above 0x10FE, and every other move keeps
PC and the stack, resets them or takes them from a snapshot. -/
theorem stepKeepsPcBounded : Obligations.StepKeepsPcBounded := by
  intro s t h ht
  have hstep := step_pcInv s h
  exact hstep.of_eq_next ht

/-! ### The invariant of the core -/

theorem endTick_sound {s : State} (h : Sound s) : Sound { s with burst := none } := ⟨h.1, h.2.endTick⟩

theorem frameEnd_sound {s : State} (h : Sound s) : Sound (frameEnd s) := by
  rw [frameEnd_frame]
  exact h

theorem tickFire_sound {s : State} (h : Sound s) (b : Nat) : Sound (tickFire b s) := by
  obtain ⟨hdata, hsched⟩ := h
  unfold tickFire
  split
  · next hrun => exact ⟨hdata, hsched.setBurst hrun (some b)⟩
  · exact ⟨hdata, hsched⟩

/-- After a unit of a tick the scheduler is still Running, or has halted and owes its frame end (R175). -/
theorem unit_sound_of_running {s : State} (h : Sound s) (hrun : s.schedState = .running) (k : Nat) :
    Answers Sound (unit { s with burst := some k }) := by
  obtain ⟨hdata, hsched⟩ := h
  obtain ⟨t, ht, hkeeps⟩ := unit_unitKeeps { s with burst := some k }
  refine ⟨t, ht, hkeeps.data hdata, ?_⟩
  rcases hkeeps.schedule with ⟨hst, hcause⟩ | ⟨hst, hcause⟩
  · rw [hst, hcause]
    exact hsched.setBurst hrun t.burst
  · rw [hst]
    exact .halted _ _ hcause

theorem coreMove_sound {s : State} (h : Sound s) : Answers Sound (coreMove s) := by
  unfold coreMove
  split
  · exact ⟨_, rfl, frameEnd_sound (endTick_sound h)⟩
  · split
    · next k _ hrun => exact unit_sound_of_running h hrun k
    · exact ⟨_, rfl, frameEnd_sound (endTick_sound h)⟩
  · split
    · have hdrawn : Sound { s with draws := s.draws + 1 } := h
      exact ⟨_, rfl, tickFire_sound hdrawn _⟩
    · exact ⟨s, rfl, h⟩

theorem startAsyncCommand_sound {s : State} (h : Sound s) : Sound (startAsyncCommand s) := by
  unfold startAsyncCommand
  split
  · exact ⟨h.1, .running _⟩
  · exact h

/-- A pause between ticks leaves no tick owing its frame end. -/
theorem pauseCommand_sound {s : State} (h : Sound s) (hidle : s.burst = none) : Sound (pauseCommand s) := by
  unfold pauseCommand
  split
  · exact ⟨h.1, scheduleOk_paused _ hidle⟩
  · exact h

theorem goCommand_sound {s : State} (h : Sound s) : Sound (goCommand s) := by
  unfold goCommand
  split
  · exact ⟨h.1, .running _⟩
  · exact h

theorem stopAndResetCommand_sound {s : State} (h : Sound s) : Sound (stopAndResetCommand s) :=
  resetWith_sound s.params h.1.params

theorem cancelCommand_sound {s : State} (h : Sound s) : Sound (cancelCommand s) := by
  unfold cancelCommand
  split
  · exact h
  · exact stopAndResetCommand_sound h

theorem stepCommand_sound {s : State} (h : Sound s) (hidle : s.burst = none) : Answers Sound (stepCommand s) := by
  rcases stepCommand_cases s with e | ⟨u, hkeeps, e⟩
  · exact ⟨s, e, h⟩
  · have hburst : u.burst = none := hkeeps.burst.trans hidle
    refine ⟨_, e, ?_⟩
    rw [stepDone_frame]
    exact ⟨hkeeps.data h.1, scheduleOk_paused _ hburst⟩

theorem loadCommand_sound {s : State} (h : Sound s) (image : Option (List Byte)) : Sound (loadCommand image s) := by
  obtain ⟨hdata, hsched⟩ := h
  unfold loadCommand
  split
  · exact ⟨hdata, hsched⟩
  · split
    · exact ⟨⟨Memory.writeWhere_wf _ _ _ hdata.mem, hdata.bps, hdata.ipf, hdata.params⟩, hsched⟩
    · exact ⟨hdata, hsched⟩

/-- A breakpoint is added only at an even address from 0x200 on that has no entry (R196). -/
theorem addBreakpointCommand_sound {s : State} (h : Sound s) (addr : Word) : Sound (addBreakpointCommand addr s) := by
  obtain ⟨hdata, hsched⟩ := h
  unfold addBreakpointCommand
  dsimp only
  split
  · next hok =>
    obtain ⟨heven, hlow, -, hnew⟩ := hok
    have hwf := BpTable.insert_wf addr.toNat hdata.bps ((BpTable.find_none _ _).1 hnew) ⟨heven, hlow, addr.isLt⟩
    exact ⟨⟨hdata.mem, hwf, hdata.ipf, hdata.params⟩, hsched⟩
  · exact ⟨hdata, hsched⟩

theorem removeBreakpointCommand_sound {s : State} (h : Sound s) (addr : Word) :
    Sound (removeBreakpointCommand addr s) := by
  obtain ⟨hdata, hsched⟩ := h
  unfold removeBreakpointCommand
  dsimp only
  split
  · exact ⟨hdata, hsched⟩
  · exact ⟨⟨hdata.mem, BpTable.erase_wf _ hdata.bps, hdata.ipf, hdata.params⟩, hsched⟩

/-- What a restore takes from a snapshot for memory and IPF, `restorable` has checked (R207). -/
theorem restoreCommand_sound {s : State} (h : Sound s) (hidle : s.burst = none) (snapshot : Option Snapshot) :
    Sound (restoreCommand snapshot s) := by
  obtain ⟨hdata, hsched⟩ := pauseCommand_sound h hidle
  have hparams := pauseCommand_params s
  unfold restoreCommand
  generalize pauseCommand s = t at hdata hsched hparams ⊢
  split
  · next p =>
    split
    · next hok =>
      obtain ⟨hmem, -, hipf⟩ := hok
      rw [← hparams] at hmem
      exact ⟨⟨hmem, hdata.bps, Nat.one_le_iff_ne_zero.2 hipf, hdata.params⟩, hsched⟩
    · exact ⟨hdata, hsched⟩
  · exact ⟨hdata, hsched⟩

theorem hostCommand_sound {s : State} (h : Sound s) (c : Command) (hfits : c.fitsInTick = true ∨ s.burst = none) :
    Answers Sound (hostCommand c s) := by
  have hidle : c.fitsInTick = false → s.burst = none := fun hc => hfits.resolve_left (by simp [hc])
  cases c with
  | startAsync => exact ⟨_, rfl, startAsyncCommand_sound h⟩
  | cancel => exact ⟨_, rfl, cancelCommand_sound h⟩
  | pause => exact ⟨_, rfl, pauseCommand_sound h (hidle rfl)⟩
  | go => exact ⟨_, rfl, goCommand_sound h⟩
  | step => exact stepCommand_sound h (hidle rfl)
  | stopAndReset => exact ⟨_, rfl, stopAndResetCommand_sound h⟩
  | load image => exact ⟨_, rfl, loadCommand_sound h image⟩
  | updateKeyState key pressed => exact ⟨_, rfl, by rw [updateKeyCommand_frame]; exact h⟩
  | tryAddBreakpoint addr => exact ⟨_, rfl, addBreakpointCommand_sound h addr⟩
  | tryRemoveBreakpoint addr => exact ⟨_, rfl, removeBreakpointCommand_sound h addr⟩
  | tryRestore snapshot => exact ⟨_, rfl, restoreCommand_sound h (hidle rfl) snapshot⟩
  | tryStore | getSurface | getRegisters | getIRegister | getProgramCounter | getMemory | getOpcode | getMnemonic
  | getSchedState | getHaltCause => exact ⟨_, rfl, h⟩

theorem step_sound : ∀ s, Sound s → Answers Sound (step s) := by
  refine step_keeps (fun _ h => h) (fun _ h => coreMove_sound h) (fun b _ h => tickFire_sound h b) ?_
  intro c s rest h _ hfits
  have hrest : Sound { s with moves := rest } := h
  exact hostCommand_sound hrest c hfits

/-- Settles O49: every kind of move keeps the data sound and the schedule in one of its four situations. -/
theorem stepKeepsInvariant : Obligations.StepKeepsInvariant := by
  intro s t h ht
  have hstep := step_sound s ((coreInv_iff_sound s).1 h)
  exact (coreInv_iff_sound t).2 (hstep.of_eq_next ht)

end Sys2Proof.Machine

/-! ## Stored bytes and fetch (20_memory.md) -/

namespace Sys2Proof.Machine

/-! ### What a store from I leaves -/

/-- An in-range store puts its `k`-th byte at I + k (R53, R57). -/
theorem readMem_writeAtI_of_lt (bs : List Byte) (s : State) (k : Nat) (hm : Memory.wf s.params.font s.mem)
    (hk : k < bs.length) (hin : s.i.toNat + k < 4096) :
    readMem (writeAtI (fun _ => true) bs s) (s.i.toNat + k) = bs[k] := by
  rw [readMem_writeAtI _ _ _ hm, dif_pos ⟨by omega, by omega, hin, rfl⟩]
  simp only [Nat.add_sub_cancel_left]

/-- A store leaves the bytes outside its block as they were. -/
theorem readMem_writeAtI_outside (pick : Nat → Bool) (bs : List Byte) (s : State) (a : Nat)
    (hm : Memory.wf s.params.font s.mem) (ha : ¬(s.i.toNat ≤ a ∧ a < s.i.toNat + bs.length)) :
    readMem (writeAtI pick bs s) a = readMem s a := by
  rw [readMem_writeAtI _ _ _ hm, dif_neg fun h => ha ⟨h.1, h.2.1⟩]

/-- `BlockByte` is what the register block's store leaves (R144). -/
theorem readMem_regBlock {x : Reg} {s : State} {a : Nat} {b : Byte} (hm : Memory.wf s.params.font s.mem)
    (hin : s.i.toNat + x.val < 4096) (hb : BlockByte x s a b) :
    readMem (writeAtI (fun _ => true) (regBlock x s) s) a = b := by
  rcases hb with ⟨r, hr, rfl, rfl⟩ | ⟨hout, rfl⟩
  · have hrx : r.val ≤ x.val := hr
    have hk : r.val < (regBlock x s).length := by rw [regBlock_length]; omega
    rw [readMem_writeAtI_of_lt _ _ _ hm hk (by omega), regBlock_getElem _ _ _ hk r.isLt]
  · exact readMem_writeAtI_outside _ _ _ _ hm (by rwa [regBlock_length])

/-- `BcdByte` is what the three digits' store leaves (R143). -/
theorem readMem_bcdDigits {x : Reg} {s : State} {a : Nat} {b : Byte} (hm : Memory.wf s.params.font s.mem)
    (hin : s.i.toNat + 2 < 4096) (hb : BcdByte x s a b) :
    readMem (writeAtI (fun _ => true) (bcdDigits x s) s) a = b := by
  have hdigit (k : Nat) (hk : k < (bcdDigits x s).length) :
      readMem (writeAtI (fun _ => true) (bcdDigits x s) s) (s.i.toNat + k) = (bcdDigits x s)[k] :=
    readMem_writeAtI_of_lt _ _ _ hm hk (by rw [bcdDigits_length] at hk; omega)
  have hbyte : BitVec.ofNat 8 b.toNat = b := by simp
  rcases hb with ⟨rfl, hb⟩ | ⟨rfl, hb⟩ | ⟨rfl, hb⟩ | ⟨hout, rfl⟩
  · exact (hdigit 0 (by simp)).trans (hb ▸ hbyte)
  · exact (hdigit 1 (by simp)).trans (hb ▸ hbyte)
  · exact (hdigit 2 (by simp)).trans (hb ▸ hbyte)
  · exact readMem_writeAtI_outside _ _ _ _ hm hout

/-! ### What a unit fetches and runs -/

/-- Below 4095 a unit runs the word it fetches (R171). -/
theorem unitRuns_fetchWord (s : State) (hpc : s.pc.toNat < 4095) : UnitRuns (fetchWord s) s := by
  refine ⟨rfl, fun k hnext hbp => ?_⟩
  have hcheck : breakpointCheck (unitTaken k s) = (false, unitTaken k s) := breakpointCheck_none _ hbp
  have hpc' : (unitTaken k s).pc.toNat < 4095 := hpc
  have hdecode : decode (unitTaken k s).params.sysBehaviour (fetchWord (unitTaken k s)) =
      decode s.params.sysBehaviour (fetchWord s) := rfl
  have hunit := unit_passes (unitTaken k s) (by omega) (by rw [hcheck])
  rw [hcheck, if_neg (by omega), hdecode, ← step_unit s k hnext] at hunit
  constructor
  · intro i hi
    rw [hunit, hi]
  · intro hmiss
    rw [hunit, hmiss]
    rfl

/-- At an address below 4095 a unit runs the big-endian word of the two bytes there (R54, R68). -/
theorem unitRuns_at {t : State} {a : Word} {hi lo : Byte} (ha : a.toNat < 4095) (hhi : readMem t a.toNat = hi)
    (hlo : readMem t (a.toNat + 1) = lo) :
    UnitRuns (BitVec.ofNat 16 (hi.toNat * 256 + lo.toNat)) { t with pc := a } := by
  subst hhi hlo
  exact unitRuns_fetchWord { t with pc := a } ha

/-- LD [I], Vx in range stores the register block and steps I past it (R144). -/
theorem exec_stBlock_inRange (x : Reg) (s : State) (hin : s.i.toNat + x.val < 4096) :
    exec (.stBlock x) s = .next (advance (bumpI x (writeAtI (fun _ => true) (regBlock x s) s))) :=
  if_pos (.inr (by omega))

/-- BCD Vx in range stores the three digits (R143). -/
theorem exec_bcd_inRange (x : Reg) (s : State) (hin : s.i.toNat + 2 < 4096) :
    exec (.bcd x) s = .next (advance (writeAtI (fun _ => true) (bcdDigits x s) s)) :=
  if_pos (.inr (by omega))

/-- Settles O24: each store leaves the bytes meant at both addresses, and the unit runs the word they make. -/
theorem storedBytesAreFetched : Obligations.StoredBytesAreFetched := by
  refine ⟨fun x s hm hin => ⟨_, exec_stBlock_inRange x s hin, ?_⟩,
    fun x s hm hin => ⟨_, exec_bcd_inRange x s hin, ?_⟩⟩
  · intro a hi lo ha hhi hlo
    exact unitRuns_at ha (readMem_regBlock hm hin hhi) (readMem_regBlock hm hin hlo)
  · intro a hi lo ha hhi hlo
    exact unitRuns_at ha (readMem_bcdDigits hm hin hhi) (readMem_bcdDigits hm hin hlo)

end Sys2Proof.Machine

/-! ## Encoding and decode (30_encoding.md) -/

namespace Sys2Proof

/-! ### The fields of a word, and the word they make up (R82, R85) -/

theorem fieldN_val (w : Word) : (fieldN w).val = w.toNat % 16 := rfl

theorem fieldNN_toNat (w : Word) : (fieldNN w).toNat = w.toNat % 256 := BitVec.toNat_ofNat ..

theorem fieldOp_lt (w : Word) : fieldOp w < 16 := by
  have := w.isLt
  simp only [fieldOp]
  omega

/-- A word is format A of its major nibble and its NNN. -/
theorem encodeA_fields {w : Word} {op : Nat} (hop : fieldOp w = op) : encodeA op (fieldNNN w) = w := by
  have := w.isLt
  refine word_eq_of_toNat ?_
  simp only [← hop, fieldOp, fieldNNN, encodeA, BitVec.toNat_ofNat]
  omega

/-- A word is format XNN of its major nibble, its X and its low byte. -/
theorem encodeXNN_fields {w : Word} {op : Nat} {nn : Byte} (hop : fieldOp w = op)
    (hnn : (fieldNN w).toNat = nn.toNat) : encodeXNN op (fieldX w) nn = w := by
  have := w.isLt
  refine word_eq_of_toNat ?_
  simp only [← hop, ← hnn, fieldNN_toNat, fieldOp, fieldX, encodeXNN, BitVec.toNat_ofNat, Fin.ofNat]
  omega

/-- A word is format XYN of its major nibble, its X, its Y and its low nibble. -/
theorem encodeXYN_fields {w : Word} {op : Nat} {n : Reg} (hop : fieldOp w = op)
    (hn : (fieldN w).val = n.val) : encodeXYN op (fieldX w) (fieldY w) n = w := by
  have := w.isLt
  refine word_eq_of_toNat ?_
  simp only [← hop, ← hn, fieldN_val, fieldOp, fieldX, fieldY, encodeXYN, BitVec.toNat_ofNat, Fin.ofNat]
  omega

theorem encodeA_inj {op : Nat} {a b : Addr12} : encodeA op a = encodeA op b ↔ a = b :=
  ⟨fun h => by rw [← fieldNNN_encodeA op a, h, fieldNNN_encodeA], congrArg _⟩

/-! ### SYS yields two of its words (R84) -/

/-- SYS is well-formed where its word is neither that of CLS nor that of RET. -/
theorem wellFormed_sys_iff (nnn : Addr12) :
    (Instr.sys nnn).wellFormed = true ↔ encodeA 0x0 nnn ≠ 0x00E0 ∧ encodeA 0x0 nnn ≠ 0x00EE := by
  have hcls : (0x00E0 : Word) = encodeA 0x0 0x0E0 := rfl
  have hret : (0x00EE : Word) = encodeA 0x0 0x0EE := rfl
  rw [hcls, hret, ne_eq, ne_eq, encodeA_inj, encodeA_inj]
  simp [Instr.wellFormed]

/-- Any word of major nibble 0 but those of CLS and RET is SYS under `Nop` (R84, R100). -/
theorem decodeZero_nop_sys {w : Word} (hcls : w ≠ 0x00E0) (hret : w ≠ 0x00EE) :
    decodeZero .nop w = some (.sys (fieldNNN w)) := by
  unfold decodeZero
  rw [if_neg hcls, if_neg hret]

/-! ### From an instruction to its word and back (R82, R88) -/

/-- Settles O2: the major nibble of `encode i` selects the family of `i`, its function nibble or byte selects `i`'s
row there, and the remaining fields are the operands (the `field..._encode...` laws); only SYS can meet another row's
word (R84). -/
theorem decodeOfEncode : Obligations.DecodeOfEncode := by
  intro i hwf
  cases i
  case sys nnn =>
    obtain ⟨hcls, hret⟩ := (wellFormed_sys_iff nnn).1 hwf
    simp [encode, decode, decodeZero_nop_sys hcls hret]
  case cls | ret => rfl
  case jp | call | ldI | jpV0 | seImm | sneImm | ldImm | addImm | rnd | seReg | sneReg | drw =>
    simp [encode, decode]
  case ldReg | orReg | andReg | xorReg | addReg | subReg | shr | subn | shl =>
    simp [encode, decode, decodeAlu]
  case skp | sknp => simp [encode, decode, decodeKey]
  case ldVxDt | ldVxK | ldDtVx | ldStVx | addI | ldF | bcd | stBlock | ldBlock =>
    simp [encode, decode, decodeMisc]

/-! ### From a word to its instruction and back (R82, R93) -/

/-- `i` has an encoding of its own, and it is `w`. -/
def IsWordOf (w : Word) (i : Instr) : Prop := encode i = w ∧ i.wellFormed = true

theorem decodeZero_isWordOf {sys : SysBehaviour} {w : Word} {i : Instr} (hop : fieldOp w = 0x0)
    (h : decodeZero sys w = some i) : IsWordOf w i := by
  unfold decodeZero at h
  split_ifs at h with hcls hret
  · cases h
    exact ⟨hcls.symm, rfl⟩
  · cases h
    exact ⟨hret.symm, rfl⟩
  · cases sys <;> cases h
    have hw : encodeA 0x0 (fieldNNN w) = w := encodeA_fields hop
    exact ⟨hw, (wellFormed_sys_iff _).2 (by rw [hw]; exact ⟨hcls, hret⟩)⟩

theorem decodeAlu_isWordOf {w : Word} {i : Instr} (hop : fieldOp w = 0x8) (h : decodeAlu w = some i) :
    IsWordOf w i := by
  unfold decodeAlu at h
  split at h <;> cases h <;> exact ⟨encodeXYN_fields hop ‹_›, rfl⟩

theorem decodeKey_isWordOf {w : Word} {i : Instr} (hop : fieldOp w = 0xE) (h : decodeKey w = some i) :
    IsWordOf w i := by
  unfold decodeKey at h
  split at h <;> cases h <;> exact ⟨encodeXNN_fields hop ‹_›, rfl⟩

theorem decodeMisc_isWordOf {w : Word} {i : Instr} (hop : fieldOp w = 0xF) (h : decodeMisc w = some i) :
    IsWordOf w i := by
  unfold decodeMisc at h
  split at h <;> cases h <;> exact ⟨encodeXNN_fields hop ‹_›, rfl⟩

/-- Settles O3: the operands of the row decode selects are the word's remaining fields, so that the word is put
together again from them. Case `h_k` is that of major nibble k - 1. -/
theorem encodeOfDecode : Obligations.EncodeOfDecode := by
  intro sys w i h
  unfold decode at h
  split at h
  case h_1 hop => exact decodeZero_isWordOf hop h
  case h_9 hop => exact decodeAlu_isWordOf hop h
  case h_15 hop => exact decodeKey_isWordOf hop h
  case h_16 hop => exact decodeMisc_isWordOf hop h
  case h_2 hop | h_3 hop | h_11 hop | h_12 hop =>
    cases h
    exact ⟨encodeA_fields hop, rfl⟩
  case h_4 hop | h_5 hop | h_7 hop | h_8 hop | h_13 hop =>
    cases h
    exact ⟨encodeXNN_fields hop rfl, rfl⟩
  case h_6 hop | h_10 hop =>
    split_ifs at h with hn
    cases h
    exact ⟨encodeXYN_fields hop hn, rfl⟩
  case h_14 hop =>
    cases h
    exact ⟨encodeXYN_fields hop rfl, rfl⟩
  case h_17 => cases h

/-! ### The row a word matches (R81, R83) -/

/-- The word of an instruction matches the instruction's row (R81). -/
theorem encode_matchesRow (i : Instr) : encode i &&& (rowPattern i).2 = (rowPattern i).1 := by
  cases i
  case cls | ret => rfl
  case sys | jp | call | ldI | jpV0 => exact Laws.RowPattern.encodeA_row _ (by decide) _
  case seImm | sneImm | ldImm | addImm | rnd => exact Laws.RowPattern.encodeXNN_row _ (by decide) _ _
  case drw => exact Laws.RowPattern.encodeXYN_row _ (by decide) _ _ _
  case seReg | sneReg | ldReg | orReg | andReg | xorReg | addReg | subReg | shr | subn | shl =>
    exact Laws.RowPattern.encodeXY_row _ _ (by decide) _ _
  case skp | sknp | ldVxDt | ldVxK | ldDtVx | ldStVx | addI | ldF | bcd | stBlock | ldBlock =>
    exact Laws.RowPattern.encodeX_row _ _ (by decide) _

theorem fieldOp_of_and_F000 {w m : Word} (h : w &&& 0xF000 = m) : fieldOp w = m.toNat / 4096 := by
  have := w.isLt
  rw [← h, and_F000]
  simp only [fieldOp, BitVec.toNat_ofNat]
  omega

theorem fields_of_and_F00F {w m : Word} (h : w &&& 0xF00F = m) :
    fieldOp w = m.toNat / 4096 ∧ (fieldN w).val = m.toNat % 16 := by
  have := w.isLt
  rw [← h, and_F00F]
  simp only [fieldOp, fieldN_val, BitVec.toNat_ofNat]
  omega

theorem fields_of_and_F0FF {w m : Word} (h : w &&& 0xF0FF = m) :
    fieldOp w = m.toNat / 4096 ∧ (fieldNN w).toNat = m.toNat % 256 := by
  have := w.isLt
  rw [← h, and_F0FF]
  simp only [fieldOp, fieldNN_toNat, BitVec.toNat_ofNat]
  omega

/-- A word that matches a row decodes to that row, but for the two words SYS yields to CLS and RET (R83, R84). -/
theorem decode_row_of_matches {w : Word} {i : Instr} (hrow : w &&& (rowPattern i).2 = (rowPattern i).1)
    (hsys : ∀ nnn, i = .sys nnn → w ≠ 0x00E0 ∧ w ≠ 0x00EE) :
    (decode .nop w).map rowPattern = some (rowPattern i) := by
  cases i
  case sys nnn =>
    obtain ⟨hcls, hret⟩ := hsys nnn rfl
    have hop := fieldOp_of_and_F000 hrow
    simp [decode, rowPattern, hop, decodeZero_nop_sys hcls hret]
  case cls | ret =>
    obtain rfl : w = _ := BitVec.and_allOnes.symm.trans hrow
    rfl
  case jp | call | seImm | sneImm | ldImm | addImm | ldI | jpV0 | rnd | drw =>
    have hop := fieldOp_of_and_F000 hrow
    simp [decode, rowPattern, hop]
  case seReg | sneReg =>
    obtain ⟨hop, hn⟩ := fields_of_and_F00F hrow
    simp [decode, rowPattern, hop, hn]
  case ldReg | orReg | andReg | xorReg | addReg | subReg | shr | subn | shl =>
    obtain ⟨hop, hn⟩ := fields_of_and_F00F hrow
    simp [decode, decodeAlu, rowPattern, hop, hn]
  case skp | sknp =>
    obtain ⟨hop, hnn⟩ := fields_of_and_F0FF hrow
    simp [decode, decodeKey, rowPattern, hop, hnn]
  case ldVxDt | ldVxK | ldDtVx | ldStVx | addI | ldF | bcd | stBlock | ldBlock =>
    obtain ⟨hop, hnn⟩ := fields_of_and_F0FF hrow
    simp [decode, decodeMisc, rowPattern, hop, hnn]

/-- Settles O4: a word that decodes is the word of its instruction (O3), which matches its row; and a word that matches
a row has the major nibble and the function field decode selects that row by. -/
theorem decodeSelectsMatchingRow : Obligations.DecodeSelectsMatchingRow := by
  refine fun w i => ⟨fun h => ?_, fun hrow hsys => Option.map_eq_some_iff.1 (decode_row_of_matches hrow hsys)⟩
  obtain ⟨hw, -⟩ := encodeOfDecode _ _ _ h
  exact hw ▸ encode_matchesRow i

/-! ### The decode misses (R90, R91) -/

theorem decodeZero_eq_none_iff (sys : SysBehaviour) (w : Word) :
    decodeZero sys w = none ↔ sys = .decodeMiss ∧ w ≠ 0x00E0 ∧ w ≠ 0x00EE := by
  unfold decodeZero
  split_ifs with hcls hret
  · simp only [hcls, ne_eq, not_true_eq_false, false_and, and_false]
  · simp only [hret, ne_eq, not_true_eq_false, and_false]
  · cases sys
    · simp only [reduceCtorEq, false_and]
    · exact iff_of_true rfl ⟨rfl, hcls, hret⟩

theorem decodeAlu_eq_none_iff (w : Word) :
    decodeAlu w = none ↔ w.toNat % 16 ∈ [0x8, 0x9, 0xA, 0xB, 0xC, 0xD, 0xF] := by
  have hlt := (fieldN w).isLt
  unfold decodeAlu
  rw [← fieldN_val]
  split
  case h_10 =>
    simp only [imp_false, List.mem_cons, List.not_mem_nil, or_false, true_iff] at *
    omega
  all_goals simp [*]

theorem decodeKey_eq_none_iff (w : Word) : decodeKey w = none ↔ w.toNat % 256 ∉ [0x9E, 0xA1] := by
  unfold decodeKey
  rw [← fieldNN_toNat]
  split <;> simp_all

theorem decodeMisc_eq_none_iff (w : Word) :
    decodeMisc w = none ↔ w.toNat % 256 ∉ [0x07, 0x0A, 0x15, 0x18, 0x1E, 0x29, 0x33, 0x55, 0x65] := by
  unfold decodeMisc
  rw [← fieldNN_toNat]
  split <;> simp_all

/-- Settles O5: major nibbles 0, 8, E and F miss where their own decoders do, 5 and 9 where N is not 0, and the others
never. Case `h_k` is that of major nibble k - 1. -/
theorem decodeMissesAreListed : Obligations.DecodeMissesAreListed := by
  intro sys w
  have hlt := fieldOp_lt w
  rw [show w.toNat / 4096 = fieldOp w from rfl]
  unfold decode
  split
  case h_1 hop => simp [hop, decodeZero_eq_none_iff]
  case h_9 hop => simp [hop, decodeAlu_eq_none_iff]
  case h_15 hop => simp [hop, decodeKey_eq_none_iff]
  case h_16 hop => simp [hop, decodeMisc_eq_none_iff]
  case h_6 hop | h_10 hop =>
    rw [fieldN_val]
    split_ifs with hn <;> simp [hop, hn]
  case h_17 =>
    simp only [imp_false] at *
    omega
  all_goals simp [*]

/-! ### Sample words (R88) -/

/-- Settles O1, by evaluating decode on each word under each value of `SYS_BEHAVIOUR`. -/
theorem sampleWordsDecode : Obligations.SampleWordsDecode :=
  ⟨fun sys => by cases sys <;> decide, by decide, by decide⟩

end Sys2Proof

/-! ## Control flow (40_control_flow.md) -/

namespace Sys2Proof.Machine

/-! ### The words of an instruction, and its completion on every state -/

/-- Only SYS depends on `SYS_BEHAVIOUR`: any other instruction a word decodes to under `Nop`, it decodes to under each
value (R88, R93). -/
theorem decode_eq_some_of_nop {w : Word} {i : Instr} (h : decode .nop w = some i) (hsys : ∀ nnn, i ≠ .sys nnn)
    (sys : SysBehaviour) : decode sys w = some i := by
  unfold decode at h ⊢
  split at h
  case h_1 hop =>
    unfold decodeZero at h ⊢
    split_ifs at h ⊢ with hcls hret
    · exact h
    · exact h
    · cases h
      exact absurd rfl (hsys _)
  all_goals exact h

/-- The word of an instruction other than SYS decodes to it. -/
theorem decodesTo_of_encode {w : Nat} {i : Instr} (hw : encode i = BitVec.ofNat 16 w) (hsys : ∀ nnn, i ≠ .sys nnn) :
    DecodesTo w i := by
  have hwf : i.wellFormed = true := by
    cases i
    case sys nnn => exact absurd rfl (hsys nnn)
    all_goals rfl
  exact decode_eq_some_of_nop (hw ▸ decodeOfEncode i hwf) hsys

/-- A word of major nibble 5 or 9 whose low nibble is not 0 is a decode miss (R90, R106, R107). -/
theorem decode_encodeXYN_eq_none {op : Nat} (hop : op = 0x5 ∨ op = 0x9) (x y : Reg) {n : Reg} (hn : n ≠ 0)
    (sys : SysBehaviour) : decode sys (encodeXYN op x y n) = none := by
  have hlow : n.val ≠ 0 := Fin.val_ne_zero_iff.2 hn
  rcases hop with rfl | rfl <;> simp [decode, hlow]

/-- An instruction other than SYS that answers `f s` on every state `s` completes as `f` does. -/
theorem completes_of_exec {w : Nat} {i : Instr} {f : State → State} {Post : State → State → Prop}
    (hw : encode i = BitVec.ofNat 16 w) (hsys : ∀ nnn, i ≠ .sys nnn) (hexec : ∀ s, exec i s = .next (f s))
    (hpost : ∀ s, Post s (f s)) : Completes w i Post :=
  ⟨decodesTo_of_encode hw hsys, fun s => ⟨f s, hexec s, hpost s⟩⟩

/-! ### What a control transfer leaves unchanged -/

theorem onlyPc_jumpTo (w : Word) (s : State) : OnlyPc s (jumpTo w s) := ⟨rfl, fun _ => rfl⟩

theorem onlyPc_advance (s : State) : OnlyPc s (advance s) := onlyPc_jumpTo _ s

theorem onlyPc_skipIf (c : Bool) (s : State) : OnlyPc s (skipIf c s) := onlyPc_jumpTo _ s

/-- A skip on a condition `P` that the model computes as `c` (R110). -/
theorem skipIf_onlyPc_of_iff {c : Bool} {P : Prop} [Decidable P] (s : State) (hc : c = true ↔ P) :
    (skipIf c s).pc = (if P then s.pc + 4 else s.pc + 2) ∧ OnlyPc s (skipIf c s) :=
  ⟨if_congr hc rfl rfl, onlyPc_skipIf c s⟩

/-! ### The target of JP V0, and the two ends of RET -/

/-- `NNN + V[0]` is at most 0xFFF + 0xFF, so that the 16-bit sum does not wrap (R108). -/
theorem v0Target_toNat (nnn : Addr12) (s : State) : (v0Target nnn s).toNat = nnn.toNat + (getV 0 s).toNat := by
  have := nnn.isLt
  have := (getV 0 s).isLt
  simp only [v0Target, BitVec.toNat_add, addrOf_toNat, BitVec.toNat_setWidth]
  omega

theorem exec_ret_of_nil {s : State} (h : s.stack = []) : exec .ret s = .next (takeFault .stackUnderflow s) := by
  simp [exec, execRet, h]

theorem exec_ret_of_cons {s : State} {a : Word} {rest : List Word} (h : s.stack = a :: rest) :
    exec .ret s = .next (jumpTo a { s with stack := rest }) := by
  simp [exec, execRet, h]

/-! ### The obligations -/

/-- Settles O6: SYS is well-formed where its word is neither CLS's nor RET's, so the word decodes back to it under
`Nop` (O2); under `DecodeMiss` major nibble 0 misses on just those words. -/
theorem sysOnlyAdvances : Obligations.SysOnlyAdvances := by
  intro nnn hcls hret
  have hne : encodeA 0x0 nnn ≠ 0x00E0 ∧ encodeA 0x0 nnn ≠ 0x00EE :=
    ⟨encodeA_inj.not.2 hcls, encodeA_inj.not.2 hret⟩
  have hw : BitVec.ofNat 16 nnn.toNat = encodeA 0x0 nnn := by simp [encodeA]
  have hzero : decodeZero .decodeMiss (encodeA 0x0 nnn) = none := (decodeZero_eq_none_iff ..).2 ⟨rfl, hne⟩
  have hmiss : decode .decodeMiss (encodeA 0x0 nnn) = none := by simp [decode, hzero]
  rw [hw]
  exact ⟨decodeOfEncode _ ((wellFormed_sys_iff nnn).2 hne), hmiss, fun s => ⟨advance s, rfl, rfl, onlyPc_advance s⟩⟩

/-- Settles O7, by the two ends of RET. -/
theorem retPopsIntoPc : Obligations.RetPopsIntoPc :=
  ⟨decodesTo_of_encode rfl nofun,
    fun _ _ _ h => ⟨_, exec_ret_of_cons h, rfl, rfl, rfl, fun _ => rfl⟩,
    fun s h => (exec_ret_of_nil h).trans (congrArg _ (takeFault_eq _ s))⟩

/-- Settles O8. -/
theorem jpSetsPc : Obligations.JpSetsPc := fun nnn =>
  completes_of_exec rfl nofun (fun _ => rfl) fun s => ⟨addrOf_toNat nnn, onlyPc_jumpTo _ s⟩

/-- Settles O9: no fetchable PC is near the top of the 16-bit range, so PC + 2 does not wrap there. -/
theorem callPushesReturnAddress : Obligations.CallPushesReturnAddress := fun nnn =>
  completes_of_exec rfl nofun (fun _ => rfl) fun s =>
    ⟨addrOf_toNat nnn, rfl,
      fun hpc => BitVec.toNat_add_of_lt (show s.pc.toNat + 2 < 2 ^ 16 by omega),
      rfl, fun _ => rfl⟩

/-- Settles O10: the model's Boolean tests decide `=` and `≠`. -/
theorem immediateSkips : Obligations.ImmediateSkips := fun _ _ =>
  ⟨completes_of_exec rfl nofun (fun _ => rfl) fun s => skipIf_onlyPc_of_iff s beq_iff_eq,
    completes_of_exec rfl nofun (fun _ => rfl) fun s => skipIf_onlyPc_of_iff s bne_iff_ne⟩

/-- Settles O11: the words of the two instructions have low nibble 0, and the others of their families miss. -/
theorem registerSkips : Obligations.RegisterSkips := fun x y =>
  ⟨completes_of_exec rfl nofun (fun _ => rfl) fun s => skipIf_onlyPc_of_iff s beq_iff_eq,
    completes_of_exec rfl nofun (fun _ => rfl) fun s => skipIf_onlyPc_of_iff s bne_iff_ne,
    fun _ hn sys => ⟨decode_encodeXYN_eq_none (.inl rfl) x y hn sys, decode_encodeXYN_eq_none (.inr rfl) x y hn sys⟩⟩

/-- Settles O12: the 16-bit sum of the model is the unbounded one. -/
theorem jpV0AddsV0 : Obligations.JpV0AddsV0 := fun nnn =>
  completes_of_exec rfl nofun (fun _ => rfl) fun s => ⟨v0Target_toNat nnn s, onlyPc_jumpTo _ s⟩

end Sys2Proof.Machine

/-! ## Arithmetic (41_alu.md) -/

namespace Sys2Proof.Machine

/-! ### The words of major nibble 8 -/

/-- The word 8XYn with its function nibble next to its major nibble, as the rows of R88 write it. -/
theorem encodeXYN_alu (x y n : Reg) :
    encodeXYN 0x8 x y n = BitVec.ofNat 16 (0x8000 + n.val + x.val * 256 + y.val * 16) := by
  refine congrArg (BitVec.ofNat 16) ?_
  omega

/-! ### One register written, and PC (R120, R121, R122, R132) -/

theorem regsKept_setV (x : Reg) (b : Byte) (s : State) : RegsKept [x] s (advance (setV x b s)) := fun r hr =>
  getV_setV_other x r b s (List.ne_of_not_mem_cons hr)

theorem onlyRegs_setV (x : Reg) (b : Byte) (s : State) : OnlyRegs [x] s (advance (setV x b s)) :=
  ⟨rfl, regsKept_setV x b s, fun _ => rfl⟩

/-! ### Results and flags as numbers (R22, R123) -/

/-- A result and a flag committed are `r` and `f`, whatever form the model computes them in. -/
theorem resultAndFlag_commit_of_eq {r r' f f' : Byte} (hr : r' = r) (hf : f' = f) (x : Reg) (s : State) :
    ResultAndFlag x r f s (advance (commit x r' f' s)) := by
  subst hr hf
  exact resultAndFlag_commit x r' f' s

/-- The difference modulo 256, by way of a minuend that is large enough (R128, R130). -/
theorem byte_sub_eq_ofNat (a b : Byte) : a - b = BitVec.ofNat 8 (a.toNat + 256 - b.toNat) := by
  have := b.isLt
  rw [BitVec.sub_def]
  refine congrArg (BitVec.ofNat 8) ?_
  omega

/-- Shifting right by one bit halves (R129). -/
theorem byte_shiftRight_one (b : Byte) : b >>> 1 = BitVec.ofNat 8 (b.toNat / 2) := by
  have := b.isLt
  refine BitVec.eq_of_toNat_eq ?_
  rw [BitVec.toNat_ushiftRight, Nat.shiftRight_eq_div_pow, BitVec.toNat_ofNat]
  omega

/-- Shifting left by one bit doubles, modulo 256 (R131). -/
theorem byte_shiftLeft_one (b : Byte) : b <<< 1 = BitVec.ofNat 8 (b.toNat * 2) := by
  refine BitVec.eq_of_toNat_eq ?_
  rw [BitVec.toNat_shiftLeft, Nat.shiftLeft_eq, BitVec.toNat_ofNat]

/-- The flag taken from bit `k` of a byte is that binary digit. -/
theorem flagByte_getLsbD (b : Byte) (k : Nat) : flagByte (b.getLsbD k) = BitVec.ofNat 8 (b.toNat / 2 ^ k % 2) := by
  have hflag : ∀ c, flagByte c = BitVec.ofNat 8 c.toNat := by decide
  rw [hflag, BitVec.getLsbD, Nat.toNat_testBit]

theorem shrFlag_eq (b : Byte) : shrFlag b = BitVec.ofNat 8 (b.toNat % 2) := by
  rw [shrFlag, flagByte_getLsbD, pow_zero, Nat.div_one]

/-- Bit 7 is the top digit: nothing stands above it (R131). -/
theorem shlFlag_eq (b : Byte) : shlFlag b = BitVec.ofNat 8 (b.toNat / 128) := by
  have htop : b.toNat / 2 ^ 7 % 2 = b.toNat / 128 := by
    have := b.isLt
    omega
  rw [shlFlag, flagByte_getLsbD, htop]

/-! ### The obligations -/

/-- Settles O13: the three instructions write one register and advance. -/
theorem loadsAndImmediateAdd : Obligations.LoadsAndImmediateAdd := fun _ _ nn =>
  ⟨completes_of_exec rfl nofun (fun _ => rfl) fun _ => ⟨getV_setV_same .., rfl, onlyRegs_setV ..⟩,
    completes_of_exec rfl nofun (fun _ => rfl) fun _ => ⟨getV_setV_same .., rfl, onlyRegs_setV ..⟩,
    completes_of_exec rfl nofun (fun _ => rfl) fun _ =>
      ⟨(congrArg BitVec.toNat (getV_setV_same ..)).trans (BitVec.toNat_add _ nn), rfl, onlyRegs_setV ..⟩⟩

/-- Settles O14: the model's result and flag, committed by R123. -/
theorem bitwiseOpsClearVf : Obligations.BitwiseOpsClearVf := fun x y =>
  ⟨completes_of_exec (encodeXYN_alu x y 0x1) nofun (fun _ => rfl) fun _ => resultAndFlag_commit ..,
    completes_of_exec (encodeXYN_alu x y 0x2) nofun (fun _ => rfl) fun _ => resultAndFlag_commit ..,
    completes_of_exec (encodeXYN_alu x y 0x3) nofun (fun _ => rfl) fun _ => resultAndFlag_commit ..⟩

/-- Settles O15: the model's 8-bit sum is the unbounded one modulo 256, which its carry is read from. -/
theorem addSetsCarry : Obligations.AddSetsCarry := fun x y =>
  completes_of_exec (encodeXYN_alu x y 0x4) nofun (fun _ => rfl) fun _ =>
    resultAndFlag_commit_of_eq (BitVec.add_def ..) rfl ..

/-- Settles O16: SUBN is SUB with the operands exchanged, in the difference as in the comparison. -/
theorem subtractionsSetStrictFlag : Obligations.SubtractionsSetStrictFlag := fun x y =>
  ⟨completes_of_exec (encodeXYN_alu x y 0x5) nofun (fun _ => rfl) fun _ =>
      resultAndFlag_commit_of_eq (byte_sub_eq_ofNat ..) rfl ..,
    completes_of_exec (encodeXYN_alu x y 0x7) nofun (fun _ => rfl) fun _ =>
      resultAndFlag_commit_of_eq (byte_sub_eq_ofNat ..) rfl ..⟩

/-- Settles O17: the shifts halve and double V[Y], and the bit they shift out is its lowest or highest digit. -/
theorem shiftsOfVy : Obligations.ShiftsOfVy := fun x y =>
  ⟨completes_of_exec (encodeXYN_alu x y 0x6) nofun (fun _ => rfl) fun _ =>
      resultAndFlag_commit_of_eq (byte_shiftRight_one _) (shrFlag_eq _) ..,
    completes_of_exec (encodeXYN_alu x y 0xE) nofun (fun _ => rfl) fun _ =>
      resultAndFlag_commit_of_eq (byte_shiftLeft_one _) (shlFlag_eq _) ..⟩

/-- Settles O18: the draw is masked by NN, so that nothing of it is left where NN = 0. -/
theorem rndMasksFreeByte : Obligations.RndMasksFreeByte := fun x nn => by
  refine completes_of_exec rfl nofun (fun _ => rfl) fun s => ?_
  have hx : getV x (advance (setV x (Config.drawByte s.draws &&& nn) { s with draws := s.draws + 1 })) =
      Config.drawByte s.draws &&& nn := getV_setV_same ..
  refine ⟨hx, ?_, rfl, rfl, regsKept_setV x _ { s with draws := s.draws + 1 }, fun _ => rfl⟩
  rintro rfl
  exact hx.trans BitVec.and_zero

end Sys2Proof.Machine

/-! ## Index and memory (42_index_memory.md) -/

namespace Sys2Proof.Machine

/-! ### The words of major nibble F -/

/-- The word FXnn with its function byte next to its major nibble, as the rows of R88 write it. -/
theorem encodeXNN_misc (x : Reg) (nn : Byte) :
    encodeXNN 0xF x nn = BitVec.ofNat 16 (0xF000 + nn.toNat + x.val * 256) := by
  refine congrArg (BitVec.ofNat 16) ?_
  omega

/-! ### I, the glyph address, the flag of ADD I and the digits, as numbers -/

/-- A glyph address is at most 0xFF * 5, so that no bit of V[X] is lost (R142). -/
theorem glyphAddr_toNat (x : Reg) (s : State) : (glyphAddr x s).toNat = (getV x s).toNat * 5 := by
  have := (getV x s).isLt
  exact (BitVec.toNat_ofNat ..).trans (Nat.mod_eq_of_lt (by omega))

theorem iPlus_toNat (x : Reg) (s : State) : (iPlus x s).toNat = (s.i.toNat + (getV x s).toNat) % 65536 := by
  have := (getV x s).isLt
  simp only [iPlus, BitVec.toNat_add, BitVec.toNat_setWidth]
  omega

/-- From an in-range block the post-increment of `bumpI` does not wrap (R144, R145). -/
theorem postIncrement_toNat {x : Reg} {i : Word} (hin : i.toNat + x.val < 4096) :
    (i + BitVec.ofNat 16 (x.val + 1)).toNat = i.toNat + x.val + 1 := by
  simp only [BitVec.toNat_add, BitVec.toNat_ofNat]
  omega

theorem addIFlag_of_high {newI : Word} (h : newI.toNat / 4096 ≠ 0) (p : AddIVfElse) (oldVf : Byte) :
    addIFlag p newI oldVf = 1 :=
  if_pos h

theorem addIFlag_of_low {newI : Word} (h : newI.toNat / 4096 = 0) (p : AddIVfElse) (oldVf : Byte) :
    addIFlag p newI oldVf = match p with | .keep => oldVf | .zero => 0 := by
  cases p <;> exact if_neg (not_not.2 h)

theorem bcdDigits_hundreds (x : Reg) (s : State) : ((bcdDigits x s)[0]).toNat = (getV x s).toNat / 100 := by
  have := (getV x s).isLt
  exact (BitVec.toNat_ofNat ..).trans (Nat.mod_eq_of_lt (by omega))

theorem bcdDigits_tens (x : Reg) (s : State) : ((bcdDigits x s)[1]).toNat = (getV x s).toNat / 10 % 10 :=
  (BitVec.toNat_ofNat ..).trans (Nat.mod_eq_of_lt (by omega))

theorem bcdDigits_ones (x : Reg) (s : State) : ((bcdDigits x s)[2]).toNat = (getV x s).toNat % 10 :=
  (BitVec.toNat_ofNat ..).trans (Nat.mod_eq_of_lt (by omega))

/-! ### What a store from I leaves, whichever of its bytes land (R53, R58, R213) -/

/-- Each byte of the block is its old or its new value (U1). -/
theorem readMem_writeAtI_old_or_new (pick : Nat → Bool) (bs : List Byte) (s : State) (k : Nat)
    (hm : Memory.wf s.params.font s.mem) (hk : k < bs.length) :
    readMem (writeAtI pick bs s) (s.i.toNat + k) = readMem s (s.i.toNat + k) ∨
      readMem (writeAtI pick bs s) (s.i.toNat + k) = bs[k] := by
  rw [readMem_writeAtI _ _ _ hm]
  split
  · right
    simp only [Nat.add_sub_cancel_left]
  · exact .inl rfl

/-- No store reaches past the end of memory (R53). -/
theorem readMem_writeAtI_pastEnd (pick : Nat → Bool) (bs : List Byte) (s : State) (a : Nat)
    (hm : Memory.wf s.params.font s.mem) (ha : 4096 ≤ a) : readMem (writeAtI pick bs s) a = readMem s a := by
  rw [readMem_writeAtI _ _ _ hm, dif_neg fun ⟨_, _, hlt, _⟩ => by omega]

/-! ### The registers a block load leaves (R145) -/

/-- A block load touches nothing but the register file. -/
theorem loadBlock_onlyV (pick : Nat → Bool) (x : Reg) (s : State) :
    ∃ v, loadBlock pick x s = { s with v := v } :=
  ⟨_, rfl⟩

theorem getV_loadBlock_inRange {x r : Reg} {s : State} (hin : s.i.toNat + x.val < 4096) (hr : r ≤ x) :
    getV r (loadBlock (fun _ => true) x s) = readMem s (s.i.toNat + r.val) := by
  have hrx : r.val ≤ x.val := hr
  rw [getV_loadBlock, if_pos ⟨hrx, by omega, rfl⟩]

theorem getV_loadBlock_above (pick : Nat → Bool) {x r : Reg} (s : State) (hr : x < r) :
    getV r (loadBlock pick x s) = getV r s := by
  rw [getV_loadBlock, if_neg fun ⟨hle, _⟩ => Nat.not_le_of_lt hr hle]

/-- Each register keeps its value or is loaded from an address that exists (U1). -/
theorem getV_loadBlock_old_or_loaded (pick : Nat → Bool) (x r : Reg) (s : State) :
    getV r (loadBlock pick x s) = getV r s ∨
      (r ≤ x ∧ s.i.toNat + r.val < 4096 ∧ getV r (loadBlock pick x s) = readMem s (s.i.toNat + r.val)) := by
  rw [getV_loadBlock]
  split
  · next h =>
    obtain ⟨hle, hlt, -⟩ := h
    exact .inr ⟨hle, hlt, rfl⟩
  · exact .inl rfl

/-! ### The two ends of the block instructions (in range: see also `exec_bcd_inRange`, `exec_stBlock_inRange`) -/

theorem not_spanInRange {base k : Nat} (h : 4096 ≤ base + k) : ¬spanInRange base (k + 1) := by
  rintro (h0 | hle) <;> omega

theorem exec_bcd_outOfRange (x : Reg) {s : State} (hout : 4096 ≤ s.i.toNat + 2) :
    exec (.bcd x) s = .next (takePartialFault .memoryOutOfRange (writeAtI (landed s) (bcdDigits x s) s)) :=
  if_neg (not_spanInRange hout)

theorem exec_stBlock_outOfRange {x : Reg} {s : State} (hout : 4096 ≤ s.i.toNat + x.val) :
    exec (.stBlock x) s = .next (takePartialFault .memoryOutOfRange (writeAtI (landed s) (regBlock x s) s)) :=
  if_neg (not_spanInRange hout)

theorem exec_ldBlock_inRange {x : Reg} {s : State} (hin : s.i.toNat + x.val < 4096) :
    exec (.ldBlock x) s = .next (advance (bumpI x (loadBlock (fun _ => true) x s))) :=
  if_pos (.inr (by omega))

theorem exec_ldBlock_outOfRange {x : Reg} {s : State} (hout : 4096 ≤ s.i.toNat + x.val) :
    exec (.ldBlock x) s = .next (takePartialFault .memoryOutOfRange (loadBlock (landed s) x s)) :=
  if_neg (not_spanInRange hout)

/-! ### The obligations -/

/-- Settles O19: both addresses fit in 16 bits. -/
theorem indexLoads : Obligations.IndexLoads :=
  ⟨fun nnn => completes_of_exec rfl nofun (fun _ => rfl) fun _ => ⟨addrOf_toNat nnn, rfl, fun _ => rfl⟩,
    fun x => completes_of_exec (encodeXNN_misc x 0x29) nofun (fun _ => rfl) fun s =>
      ⟨glyphAddr_toNat x s, rfl, fun _ => rfl⟩⟩

/-- Settles O20: VF is the one register written, with the flag of the new I. -/
theorem addToIndex : Obligations.AddToIndex := fun x => by
  refine completes_of_exec (encodeXNN_misc x 0x1E) nofun (fun _ => rfl) fun s => ?_
  have hvf : getV vf (setV vf (addIFlag s.params.addIVfElse (iPlus x s) (getV vf s)) (setI (iPlus x s) s)) =
      addIFlag s.params.addIVfElse (iPlus x s) (getV vf s) := getV_setV_same ..
  exact ⟨iPlus_toNat x s, fun h => hvf.trans (addIFlag_of_high h ..), fun h => hvf.trans (addIFlag_of_low h ..), rfl,
    regsKept_setV vf _ (setI (iPlus x s) s), fun _ => rfl⟩

/-- Settles O21: in range the store puts each digit at its address; the fault leaves each byte before the failing one
as it was or its digit. -/
theorem bcdStoresDigits : Obligations.BcdStoresDigits := by
  refine fun x => ⟨decodesTo_of_encode (encodeXNN_misc x 0x33) nofun, fun s hm hin => ?_, fun s hm hout => ?_⟩
  · have hdigit (k : Nat) (hk : k < (bcdDigits x s).length) :
        (readMem (writeAtI (fun _ => true) (bcdDigits x s) s) (s.i.toNat + k)).toNat = ((bcdDigits x s)[k]).toNat :=
      congrArg BitVec.toNat (readMem_writeAtI_of_lt _ s k hm hk (by rw [bcdDigits_length] at hk; omega))
    refine ⟨_, exec_bcd_inRange x s hin, ?_⟩
    simp only [MemKeptOutside, readMem_advance]
    exact ⟨(hdigit 0 (by simp)).trans (bcdDigits_hundreds x s), (hdigit 1 (by simp)).trans (bcdDigits_tens x s),
      (hdigit 2 (by simp)).trans (bcdDigits_ones x s), fun a ha => readMem_writeAtI_outside _ _ s a hm ha, rfl⟩
  · have hdigit (k : Nat) (hk : k < (bcdDigits x s).length) :=
      readMem_writeAtI_old_or_new (landed s) (bcdDigits x s) s k hm hk
    refine ⟨_, exec_bcd_outOfRange x hout, ?_⟩
    simp only [MemKeptOutside, readMem_takePartialFault]
    exact ⟨rfl, fun a ha => readMem_writeAtI_outside _ _ s a hm ha,
      (hdigit 0 (by simp)).imp_right fun h => (congrArg BitVec.toNat h).trans (bcdDigits_hundreds x s),
      (hdigit 1 (by simp)).imp_right fun h => (congrArg BitVec.toNat h).trans (bcdDigits_tens x s),
      fun a => readMem_writeAtI_pastEnd _ _ s a hm⟩

/-- Settles O22: in range `BlockByte` is what the store leaves; the fault leaves each byte of the block as it was or
its register. -/
theorem blockStore : Obligations.BlockStore := by
  refine fun x => ⟨decodesTo_of_encode (encodeXNN_misc x 0x55) nofun, fun s hm hin => ?_, fun s hm hout => ?_⟩
  · refine ⟨_, exec_stBlock_inRange x s hin, ?_⟩
    simp only [MemKeptOutside, readMem_advance, readMem_bumpI, advance_i, bumpI_i, writeAtI_i]
    exact ⟨fun r hr => readMem_regBlock hm hin (.inl ⟨r, hr, rfl, rfl⟩),
      fun a ha => readMem_regBlock hm hin (.inr ⟨ha, rfl⟩), postIncrement_toNat hin, rfl⟩
  · have hlen : (regBlock x s).length = x.val + 1 := regBlock_length x s
    refine ⟨_, exec_stBlock_outOfRange hout, ?_⟩
    simp only [MemKeptOutside, readMem_takePartialFault]
    refine ⟨rfl, fun a ha => readMem_writeAtI_outside _ _ s a hm (by rwa [hlen]), fun r hr => ?_,
      fun a => readMem_writeAtI_pastEnd _ _ s a hm⟩
    have hk : r.val < (regBlock x s).length := hlen ▸ Nat.lt_succ_of_le hr
    exact (readMem_writeAtI_old_or_new _ _ s r.val hm hk).imp_right fun h =>
      h.trans (regBlock_getElem x s r.val hk r.isLt)

/-- Settles O23: a block load writes no register above VX, and the fault loads from no address past the end. -/
theorem blockLoad : Obligations.BlockLoad := by
  refine fun x => ⟨decodesTo_of_encode (encodeXNN_misc x 0x65) nofun, fun s hin => ?_, fun s hout => ?_⟩
  · obtain ⟨v, hv⟩ := loadBlock_onlyV (fun _ => true) x s
    refine ⟨_, exec_ldBlock_inRange hin, ?_⟩
    simp only [MemKept, getV_advance, getV_bumpI, readMem_advance, readMem_bumpI, readMem_loadBlock, advance_i, bumpI_i,
      loadBlock_i]
    exact ⟨fun _ => getV_loadBlock_inRange hin, fun _ => getV_loadBlock_above _ s, postIncrement_toNat hin,
      by rw [hv]; rfl, fun _ => trivial⟩
  · obtain ⟨v, hv⟩ := loadBlock_onlyV (landed s) x s
    refine ⟨_, exec_ldBlock_outOfRange hout, ?_⟩
    simp only [MemKept, getV_takePartialFault, readMem_takePartialFault, readMem_loadBlock]
    exact ⟨by rw [hv]; rfl, fun _ => trivial, fun r => getV_loadBlock_old_or_loaded _ x r s⟩

end Sys2Proof.Machine

/-! ## Display (43_display.md) -/

namespace Sys2Proof.Machine

/-! ### CLS -/

/-- Settles O25: `execCls` puts the blank surface in place and advances. -/
theorem clsBlanksSurface : Obligations.ClsBlanksSurface :=
  completes_of_exec rfl nofun (fun _ => rfl) fun _ => ⟨fun x y _ _ => getPixel_blank x y, rfl, fun _ => rfl⟩

/-! ### The two ends of DRW -/

/-- The surface and the collision flag DRW leaves on `s` (R151, R152). `exec_drw_inRange` ties it to the model. -/
def drwPlot (x y n : Reg) (s : State) : Surface × Bool :=
  plotRows ((List.range n.val).map fun k => readMem s (s.i.toNat + k)) (drawOrigin s x 64) (drawOrigin s y 32)
    (s.surf, false)

theorem exec_drw_inRange {x y n : Reg} {s : State} (hin : spanInRange s.i.toNat n.val) :
    exec (.drw x y n) s =
      .next (advance (setV vf (flagByte (drwPlot x y n s).2) { s with surf := (drwPlot x y n s).1 })) := by
  simp only [exec, execDrw, readSpan_some n.val s hin, drwStart_eq, drwPlot]

/-- Writing back the value a register holds changes nothing. -/
theorem setV_getV_self (r : Reg) (s : State) : setV r (getV r s) s = s := by
  simp [setV, getV]

/-- Whether or not the clear of VF has landed, the fault is taken with VF at some value `b` (R213, U1). -/
theorem exec_drw_outOfRange {x y n : Reg} {s : State} (hout : ¬spanInRange s.i.toNat n.val) :
    ∃ b, (b = getV vf s ∨ b = 0) ∧
      exec (.drw x y n) s = .next (takePartialFault .memoryOutOfRange (setV vf b s)) := by
  simp only [exec, execDrw, readSpan_none n.val s hout]
  split
  · exact ⟨0, .inr rfl, rfl⟩
  · exact ⟨getV vf s, .inl rfl, by rw [setV_getV_self]⟩

/-! ### What DRW plots -/

/-- Inside the grid DRW toggles the pixels the sprite covers and keeps the others (R151). -/
theorem getPixel_drwPlot (x y n : Reg) (s : State) {px py : Nat} (hx : px < 64) (hy : py < 32) :
    getPixel (drwPlot x y n s).1 px py =
      (getPixel s.surf px py ^^ spriteCovers s n.val (drawOrigin s x 64) (drawOrigin s y 32) px py) := by
  rw [drwPlot, getPixel_plotRows, spriteAt_readSpan]
  simp [hx, hy]

/-- DRW finds a collision where a covered pixel inside the grid was set before (R152). -/
theorem collision_drwPlot (x y n : Reg) (s : State) :
    (drwPlot x y n s).2 = true ↔ ∃ px py, px < 64 ∧ py < 32 ∧
      spriteCovers s n.val (drawOrigin s x 64) (drawOrigin s y 32) px py = true ∧ getPixel s.surf px py = true := by
  rw [drwPlot, collision_plotRows]
  simp only [spriteAt_readSpan, Bool.false_eq_true, false_or]

/-! ### The obligation of DRW -/

/-- Settles O26: in range DRW leaves `drwPlot` and its collision flag; on the fault VF is the one register that may
have changed. -/
theorem drwTogglesCoveredPixels : Obligations.DrwTogglesCoveredPixels := by
  refine fun x y n => ⟨decodesTo_of_encode rfl nofun, fun s hin => ?_, fun s hn hout => ?_⟩
  · have hvf : getV vf (setV vf (flagByte (drwPlot x y n s).2) { s with surf := (drwPlot x y n s).1 }) =
        flagByte (drwPlot x y n s).2 := getV_setV_same ..
    have hcollision := collision_drwPlot x y n s
    exact ⟨_, exec_drw_inRange hin,
      ⟨fun _ _ => getPixel_drwPlot x y n s, fun h => hvf.trans (if_pos (hcollision.2 h)),
        fun h => hvf.trans (if_neg (hcollision.not.2 h))⟩,
      rfl, regsKept_setV vf _ { s with surf := (drwPlot x y n s).1 }, fun _ => rfl⟩
  · have hspan : ¬spanInRange s.i.toNat n.val := by rintro (h0 | hle) <;> omega
    obtain ⟨b, hb, hexec⟩ := exec_drw_outOfRange (x := x) (y := y) hspan
    have hvf : getV vf (setV vf b s) = b := getV_setV_same ..
    exact ⟨_, hexec, rfl, regsKept_setV vf b s, hb.imp hvf.trans hvf.trans, fun _ => rfl⟩

end Sys2Proof.Machine

/-! ## Keys and timers (44_keys_timers.md) -/

namespace Sys2Proof.Machine

/-! ### The words of format XNN -/

/-- A word of format XNN with its function byte next to its major nibble (R85), whichever that is; for major nibble F
see `encodeXNN_misc`. -/
theorem encodeXNN_eq_ofNat (op : Nat) (x : Reg) (nn : Byte) :
    encodeXNN op x nn = BitVec.ofNat 16 (op * 4096 + nn.toNat + x.val * 256) :=
  congrArg (BitVec.ofNat 16) (Nat.add_right_comm ..)

/-! ### The two ends of the key skips (R162) -/

theorem keyIndex_of_le {x : Reg} {s : State} (h : (getV x s).toNat ≤ 15) :
    keyIndex x s = some (getV x s).toNat :=
  if_pos h

theorem keyIndex_of_gt {x : Reg} {s : State} (h : 15 < (getV x s).toNat) : keyIndex x s = none :=
  if_neg h.not_ge

theorem exec_skp_of_le {x : Reg} {s : State} (h : (getV x s).toNat ≤ 15) :
    exec (.skp x) s = .next (skipIf (keyPressed (getV x s).toNat s) s) := by
  simp [exec, execSkp, keyIndex_of_le h]

theorem exec_sknp_of_le {x : Reg} {s : State} (h : (getV x s).toNat ≤ 15) :
    exec (.sknp x) s = .next (skipIf (!keyPressed (getV x s).toNat s) s) := by
  simp [exec, execSknp, keyIndex_of_le h]

theorem exec_skp_of_gt {x : Reg} {s : State} (h : 15 < (getV x s).toNat) :
    exec (.skp x) s = .next (takeFault .keyIndexOutOfRange s) := by
  simp [exec, execSkp, keyIndex_of_gt h]

theorem exec_sknp_of_gt {x : Reg} {s : State} (h : 15 < (getV x s).toNat) :
    exec (.sknp x) s = .next (takeFault .keyIndexOutOfRange s) := by
  simp [exec, execSknp, keyIndex_of_gt h]

theorem skipIf_not_pc (c : Bool) (s : State) : (skipIf (!c) s).pc = if c then s.pc + 2 else s.pc + 4 := by
  cases c <;> rfl

/-! ### The two ends of LD Vx, K (R164) -/

theorem exec_ldVxK_of_none (x : Reg) {s : State} (h : s.lastKey = none) : exec (.ldVxK x) s = .next s := by
  simp [exec, execLdVxK, h]

theorem exec_ldVxK_of_some (x : Reg) {s : State} {k : Reg} (h : s.lastKey = some k) :
    exec (.ldVxK x) s = .next (advance (setV x (BitVec.ofNat 8 k.val) { s with lastKey := none })) := by
  simp [exec, execLdVxK, h]

/-- A key number fits in the byte it is stored as. -/
theorem keyByte_toNat (k : Reg) : (BitVec.ofNat 8 k.val).toNat = k.val := by
  have := k.isLt
  exact (BitVec.toNat_ofNat ..).trans (Nat.mod_eq_of_lt (by omega))

/-! ### The obligations -/

/-- Settles O27: up to 15 both test the bit of KEYS, SKNP its negation; above 15 both are the fault of R162. -/
theorem keySkips : Obligations.KeySkips := fun x =>
  ⟨decodesTo_of_encode (encodeXNN_eq_ofNat 0xE x 0x9E) nofun,
    decodesTo_of_encode (encodeXNN_eq_ofNat 0xE x 0xA1) nofun,
    fun s hkey =>
      ⟨⟨_, exec_skp_of_le hkey, onlyPc_skipIf _ s, rfl⟩,
        ⟨_, exec_sknp_of_le hkey, onlyPc_skipIf _ s, skipIf_not_pc _ s⟩⟩,
    fun s hno =>
      ⟨(exec_skp_of_gt hno).trans (congrArg _ (takeFault_eq _ s)),
        (exec_sknp_of_gt hno).trans (congrArg _ (takeFault_eq _ s))⟩⟩

/-- Settles O28: `LD Vx, DT` writes the one register X, the others a timer and no register. -/
theorem timerCopies : Obligations.TimerCopies := fun x =>
  ⟨completes_of_exec (encodeXNN_misc x 0x07) nofun (fun _ => rfl) fun s =>
      ⟨getV_setV_same x s.dt s, rfl, onlyRegs_setV x s.dt s⟩,
    completes_of_exec (encodeXNN_misc x 0x15) nofun (fun _ => rfl) fun _ => ⟨rfl, fun _ => rfl⟩,
    completes_of_exec (encodeXNN_misc x 0x18) nofun (fun _ => rfl) fun _ => ⟨rfl, fun _ => rfl⟩⟩

/-- Settles O29, by the two ends of LD Vx, K. -/
theorem keyWait : Obligations.KeyWait := by
  refine fun x => ⟨decodesTo_of_encode (encodeXNN_misc x 0x0A) nofun, fun _ => exec_ldVxK_of_none x, fun s k hk => ?_⟩
  have hx : getV x (setV x (BitVec.ofNat 8 k.val) { s with lastKey := none }) = BitVec.ofNat 8 k.val :=
    getV_setV_same ..
  exact ⟨_, exec_ldVxK_of_some x hk, (congrArg BitVec.toNat hx).trans (keyByte_toNat k),
    regsKept_setV x _ { s with lastKey := none }, fun _ => rfl, rfl⟩

end Sys2Proof.Machine

/-! ## The scheduler and the host's commands (45_scheduler_and_host.md) -/

namespace Sys2Proof.Machine

/-! ### The frame end (R181) -/

@[simp] theorem frameEnd_burst (s : State) : (frameEnd s).burst = s.burst := by rw [frameEnd_frame]
@[simp] theorem frameEnd_moves (s : State) : (frameEnd s).moves = s.moves := by rw [frameEnd_frame]

theorem frameEnd_dt (s : State) : (frameEnd s).dt = countDown s.dt := by
  unfold frameEnd
  dsimp only
  split <;> rfl

theorem frameEnd_st (s : State) : (frameEnd s).st = countDown s.st := by
  unfold frameEnd
  dsimp only
  split <;> rfl

theorem byte_bne_zero (b : Byte) : (b != 0) = decide (0 < b.toNat) := by
  revert b
  decide

/-- BEEP follows the sound timer, as the frame end leaves it. -/
theorem frameEnd_beep (s : State) : (frameEnd s).beep = ((frameEnd s).st != 0) := by
  rw [frameEnd_st]
  unfold frameEnd
  dsimp only
  split
  · next h => exact h
  · rfl

/-- `BeepStatus` on a change, and then `Tick`. -/
theorem frameEnd_out (s : State) :
    (frameEnd s).out =
      .tick :: (if (frameEnd s).beep = s.beep then s.out else .beepStatus (frameEnd s).beep :: s.out) := by
  rw [frameEnd_beep, frameEnd_st]
  unfold frameEnd
  dsimp only
  split
  · next h => rw [if_pos h.symm]; rfl
  · next h => rw [if_neg (Ne.symm h)]; rfl

/-- One frame end, one `Tick`. -/
theorem frameEnd_ticks (s : State) : (frameEnd s).out.count .tick = s.out.count .tick + 1 := by
  rw [frameEnd_out, List.count_cons_self]
  split <;> simp

/-! ### What a unit leaves of the control state (R171, R172) -/

/-- The hit-checker's only event is `BreakpointHit`. -/
theorem breakpointCheck_ticks (s : State) : (breakpointCheck s).2.out.count .tick = s.out.count .tick := by
  unfold breakpointCheck
  split
  · rfl
  · split
    · rfl
    · simp

/-- `t` is left by a unit that the hit-checker let through in the state `u`: no entry, no count and no `Tick`
since, and a halt is a decode miss or a fault. -/
structure PassedCheck (u t : State) : Prop where
  bps : t.bps = u.bps
  frameCount : t.frameCount = u.frameCount
  ipf : t.ipf = u.ipf
  ticks : t.out.count .tick = u.out.count .tick
  haltCause : t.haltCause = u.haltCause ∨ t.haltCause = .decodeMiss ∨ ∃ code, t.haltCause = .fault code

theorem takeFault_passedCheck (code : Fault) (u : State) : PassedCheck u (takeFault code u) :=
  ⟨rfl, rfl, rfl, by simp, .inr (.inr ⟨code, rfl⟩)⟩

theorem exec_passedCheck (i : Instr) (u : State) : Answers (PassedCheck u) (exec i u) := by
  obtain ⟨t, ht, hipf, -, hcount, hbps, -, -, -, -, -, hcontrol⟩ := executesOrTakesAFault i u
  refine ⟨t, ht, hbps, hcount, hipf, ?_, ?_⟩
  · rcases hcontrol with ⟨-, -, hout⟩ | ⟨code, -, -, hout, -⟩
    · rw [hout]
    · simp [hout]
  · rcases hcontrol with ⟨-, hcause, -⟩ | ⟨code, -, hcause, -, -⟩
    · exact .inl hcause
    · exact .inr (.inr ⟨code, hcause⟩)

theorem unit_passedCheck {s : State} (hp : s.pc.toNat < 4096) (hb : (breakpointCheck s).1 = false) :
    Answers (PassedCheck (breakpointCheck s).2) (unit s) := by
  rw [unit_passes s hp hb]
  split
  · exact ⟨_, rfl, takeFault_passedCheck _ _⟩
  · split
    · exact ⟨_, rfl, rfl, rfl, rfl, rfl, .inr (.inl rfl)⟩
    · next i _ => exact exec_passedCheck i _

/-- Whatever a unit does, it uses no count of the step frame, leaves IPF alone and emits no `Tick`. -/
theorem unit_keepsFrame (s : State) :
    Answers (fun t => t.frameCount = s.frameCount ∧ t.ipf = s.ipf ∧ t.out.count .tick = s.out.count .tick)
      (unit s) := by
  have hcount : (breakpointCheck s).2.frameCount = s.frameCount := by rw [breakpointCheck_frame]
  have hipf : (breakpointCheck s).2.ipf = s.ipf := by rw [breakpointCheck_frame]
  rcases Nat.lt_or_ge s.pc.toNat 4096 with hp | hp
  · cases hb : (breakpointCheck s).1 with
    | true => exact ⟨_, unit_breakpoint s hp hb, hcount, hipf, breakpointCheck_ticks s⟩
    | false =>
      obtain ⟨t, ht, hkept⟩ := unit_passedCheck hp hb
      exact ⟨t, ht, hkept.frameCount.trans hcount, hkept.ipf.trans hipf,
        hkept.ticks.trans (breakpointCheck_ticks s)⟩
  · exact ⟨_, unit_pcPastEnd s hp, rfl, rfl, rfl⟩

/-! ### The core's move inside a tick (R175) -/

/-- The core ends the tick where the burst is used up or has halted. -/
theorem coreMove_frameEnd {s : State} {k : Nat} (hb : s.burst = some k) (h : k = 0 ∨ s.schedState ≠ .running) :
    coreMove s = .next (frameEnd { s with burst := none }) := by
  unfold coreMove
  rw [hb]
  cases k with
  | zero => rfl
  | succ k => exact if_neg (h.resolve_left (Nat.succ_ne_zero k))

/-- While Running the core runs the next unit of the burst. -/
theorem coreMove_unit {s : State} {k : Nat} (hb : s.burst = some (k + 1)) (hrun : s.schedState = .running) :
    coreMove s = unit { s with burst := some k } := by
  unfold coreMove
  rw [hb]
  exact if_pos hrun

/-- A move of the core inside a tick ends it with its one `Tick`, or emits none and leaves a burst of one unit
less. -/
theorem coreMove_inTick {s : State} {k : Nat} (hb : s.burst = some k) :
    Answers (fun t => t.moves = s.moves ∧
      ((t.burst = none ∧ t.out.count .tick = s.out.count .tick + 1) ∨
        ∃ j, k = j + 1 ∧ t.burst = some j ∧ t.out.count .tick = s.out.count .tick)) (coreMove s) := by
  by_cases hend : k = 0 ∨ s.schedState ≠ .running
  · exact ⟨_, coreMove_frameEnd hb hend, frameEnd_moves _, .inl ⟨frameEnd_burst _, frameEnd_ticks _⟩⟩
  · obtain ⟨hk, hrun⟩ := not_or.1 hend
    obtain ⟨j, rfl⟩ := Nat.exists_eq_succ_of_ne_zero hk
    rw [coreMove_unit hb (not_not.1 hrun)]
    obtain ⟨t, ht, hkeeps⟩ := unit_unitKeeps { s with burst := some j }
    obtain ⟨-, -, hticks⟩ := (unit_keepsFrame { s with burst := some j }).of_eq_next ht
    exact ⟨t, ht, hkeeps.moves, .inr ⟨j, rfl, hkeeps.burst, hticks⟩⟩

/-- With no move pending a step is the core's own. -/
theorem step_of_no_moves {s : State} (h : s.moves = []) : step s = coreMove s := by
  simp only [step, nextMove, h]

/-- Settles O39, by induction on the burst: a step of the core ends the tick with its one `Tick`, or emits none and
leaves a smaller burst to run. -/
theorem oneTickPerTickFire : Obligations.OneTickPerTickFire := by
  intro b
  induction b with
  | zero =>
    intro s hmoves hb
    obtain ⟨t, ht, -, hend⟩ := coreMove_inTick hb
    obtain ⟨hnone, hticks⟩ := hend.resolve_right (by simp)
    exact ⟨1, t, le_rfl, le_rfl, core_run_succ 0 s t (step_of_no_moves hmoves ▸ ht), hnone, hticks⟩
  | succ b ih =>
    intro s hmoves hb
    obtain ⟨t, ht, hkept, hend⟩ := coreMove_inTick hb
    have hstep : step s = .next t := step_of_no_moves hmoves ▸ ht
    rcases hend with ⟨hnone, hticks⟩ | ⟨j, hj, hburst, hticks⟩
    · exact ⟨1, t, le_rfl, by omega, core_run_succ 0 s t hstep, hnone, hticks⟩
    · obtain rfl := Nat.succ.inj hj
      obtain ⟨n, u, -, hn, hrun, hnone, hu⟩ := ih t (hkept.trans hmoves) hburst
      exact ⟨n + 1, u, by omega, by omega, (core_run_succ n s t hstep).trans hrun, hnone, hticks ▸ hu⟩

/-- Settles O43: the commands listed are those that do not fit in a tick, so the step is the core's move, which ends the
tick or leaves a smaller burst. -/
theorem commandsWaitForTickEnd : Obligations.CommandsWaitForTickEnd := by
  intro s k m rest hb hm hwaits
  have hstep : step s = coreMove s := by
    rcases hwaits with ⟨b, rfl⟩ | ⟨c, rfl, hc⟩
    · simp [step, nextMove, hm, hb]
    · have hfits : c.fitsInTick = false := by
        rcases hc with hc | ⟨image, rfl⟩ | ⟨p, rfl⟩
        · simp only [List.mem_cons, List.not_mem_nil, or_false] at hc
          rcases hc with rfl | rfl | rfl | rfl | rfl | rfl | rfl | rfl <;> rfl
        · rfl
        · rfl
      simp [step, nextMove, hm, hb, hfits]
  obtain ⟨t, ht, hmoves, hend⟩ := coreMove_inTick hb
  refine ⟨hstep, t, ht, hmoves, ?_⟩
  rcases hend with ⟨hnone, -⟩ | ⟨j, rfl, hburst, -⟩
  · exact .inl hnone
  · exact .inr ⟨j, hburst, j.lt_succ_self⟩

/-- Settles O37: the frame end field by field, and the two places where the core makes it. -/
theorem frameEndDecrementsTimers : Obligations.FrameEndDecrementsTimers := by
  refine ⟨fun s => ⟨?_, ?_, ?_, frameEnd_out s, frameEnd_frame s⟩, fun s k hb hcore hend => ?_⟩
  · rw [frameEnd_dt, countDown_toNat]
  · rw [frameEnd_st, countDown_toNat]
  · rw [frameEnd_beep, byte_bne_zero]
  · rw [step_core s hcore]
    exact coreMove_frameEnd hb hend

/-! ### Between ticks (R175 to R177) -/

theorem tickFire_of_running (b : Nat) (s : State) (h : s.schedState = .running) :
    tickFire b s = { s with burst := some b } :=
  if_pos h

theorem tickFire_of_not_running (b : Nat) (s : State) (h : s.schedState ≠ .running) : tickFire b s = s :=
  if_neg h

theorem coreMove_of_running {s : State} (hb : s.burst = none) (h : s.schedState = .running) :
    coreMove s = .next { s with burst := some (Config.burst s.draws), draws := s.draws + 1 } := by
  unfold coreMove
  rw [hb]
  dsimp only
  rw [if_pos h]
  exact congrArg _ (tickFire_of_running _ { s with burst := none, draws := s.draws + 1 } h)

theorem coreMove_of_not_running {s : State} (hb : s.burst = none) (h : s.schedState ≠ .running) :
    coreMove s = .next s := by
  unfold coreMove
  rw [hb]
  exact if_neg h

theorem step_tickFire {s : State} {b : Nat} {rest : List Move} (hb : s.burst = none)
    (hm : s.moves = .tickFire b :: rest) : step s = .next (tickFire b { s with moves := rest }) := by
  simp [step, nextMove, hm, hb]

/-- Settles O38: the timer's move and the core's own, each while Running and in any other state. -/
theorem tickFiresWhileRunning : Obligations.TickFiresWhileRunning := by
  refine ⟨fun s b rest hb hm => ?_, fun s hb hcore => ?_⟩
  · rw [step_tickFire hb hm]
    exact ⟨fun h => congrArg _ (tickFire_of_running b { s with moves := rest } h),
      fun h => congrArg _ (tickFire_of_not_running b { s with moves := rest } h)⟩
  · rw [step_core s hcore]
    exact ⟨coreMove_of_running (s := { s with moves := s.moves.tail }) hb,
      coreMove_of_not_running (s := { s with moves := s.moves.tail }) hb⟩

/-! ### The unit, by what stands at PC (R171, R172) -/

section
variable {s u : State}

theorem unit_executes (hcheck : breakpointCheck s = (false, u)) (hp : s.pc.toNat < 4095) {i : Instr}
    (hi : decode s.params.sysBehaviour (wordAtPc s) = some i) : unit s = exec i u := by
  rw [unit_passes s (by omega) (by rw [hcheck]), if_neg (by omega), fetchWord_eq, hi, hcheck]

theorem unit_decodeMiss (hcheck : breakpointCheck s = (false, u)) (hp : s.pc.toNat < 4095)
    (hmiss : decode s.params.sysBehaviour (wordAtPc s) = none) : unit s = .next (halt .decodeMiss u) := by
  rw [unit_passes s (by omega) (by rw [hcheck]), if_neg (by omega), fetchWord_eq, hmiss, hcheck]

theorem unit_fetchOutOfRange (hcheck : breakpointCheck s = (false, u)) (hp : s.pc.toNat = 4095) :
    unit s = .next (FaultState .fetchOutOfRange u) := by
  rw [unit_passes s (by omega) (by rw [hcheck]), if_pos hp, hcheck, takeFault_eq]

end

/-- Settles O34: the check lets the unit through as it stands, or on the table with the entry made inactive. -/
theorem stepRunsDecodedInstruction : Obligations.StepRunsDecodedInstruction := by
  refine ⟨fun s k i hnext hp hno hi => ?_, fun s k i hits hnext hp hwf hmem hi => ?_⟩
  · rw [step_unit s k hnext]
    exact unit_executes (breakpointCheck_none (unitTaken k s) hno) hp hi
  · rw [step_unit s k hnext]
    exact unit_executes (breakpointCheck_active (unitTaken k s) hits hwf hmem) hp hi

/-- Settles O35: the halts of the unit, from the state the check leaves. -/
theorem unitHaltsWithoutExecuting : Obligations.UnitHaltsWithoutExecuting := by
  refine ⟨fun s k hnext hp => ?_, fun s k hnext hp hno => ?_, fun s k hnext hp hno hmiss => ?_,
    fun s k hits hnext hp hwf hmem hmiss => ?_⟩ <;> rw [step_unit s k hnext]
  · exact unit_pcPastEnd (unitTaken k s) hp
  · exact unit_fetchOutOfRange (breakpointCheck_none (unitTaken k s) hno) hp
  · exact unit_decodeMiss (breakpointCheck_none (unitTaken k s) hno) hp hmiss
  · exact unit_decodeMiss (breakpointCheck_active (unitTaken k s) hits hwf hmem) hp hmiss

/-! ### One `Step` of the host (R185, R186) -/

theorem isFault_eq_false_iff (c : HaltCause) : c.isFault = false ↔ ∀ code, c ≠ .fault code := by
  cases c <;> simp [HaltCause.isFault]

/-- Outside Paused and after a fault the test that `Go` and `Step` make of the state fails (R186, R192). -/
theorem resume_refused {s : State} (h : s.schedState ≠ .paused ∨ ∃ code, s.haltCause = .fault code) :
    ¬(s.schedState = .paused ∧ s.haltCause.isFault = false) := by
  rintro ⟨hp, hf⟩
  rcases h with hnot | ⟨code, hcode⟩
  · exact hnot hp
  · exact (isFault_eq_false_iff _).1 hf code hcode

/-- A halted unit ends the `Step`: nothing is consumed. -/
theorem stepDone_of_paused {t : State} (h : t.schedState = .paused) : stepDone t = t := by
  unfold stepDone
  rw [if_neg (by simp [h]), ← h]

/-- A unit that executed uses up one count of the step frame. -/
theorem stepDone_of_executed {t : State} (h : t.schedState = .steppingFrame) (hcount : t.frameCount - 1 ≠ 0) :
    stepDone t = { t with frameCount := t.frameCount - 1, schedState := .paused } := by
  unfold stepDone
  rw [if_pos h, if_neg hcount]

/-- The last count of the step frame: the frame end, and the counter is refilled from IPF. -/
theorem stepDone_of_frameDone {t : State} (h : t.schedState = .steppingFrame) (hcount : t.frameCount = 1) :
    stepDone t = { frameEnd t with frameCount := t.ipf, schedState := .paused } := by
  unfold stepDone frameEnd
  dsimp only
  rw [if_pos h, if_pos (by omega)]
  split <;> rfl

/-- `Step` accepted: one unit from SteppingFrame, and then the end of the `Step`. -/
theorem step_of_unit {s t : State} (hnext : HostNext .step s) (hp : s.schedState = .paused)
    (hf : ∀ code, s.haltCause ≠ .fault code) (hu : unit (stepStart (moveTaken s)) = .next t) :
    step s = .next (stepDone t) := by
  rw [step_host s .step hnext]
  exact stepCommand_of_unit (moveTaken s) t hp ((isFault_eq_false_iff _).2 hf) hu

/-- A `Step` whose unit halts ends with the state that the unit leaves. -/
theorem step_of_haltingUnit {s t : State} (hnext : HostNext .step s) (hp : s.schedState = .paused)
    (hf : ∀ code, s.haltCause ≠ .fault code) (hu : unit (stepStart (moveTaken s)) = .next t)
    (ht : t.schedState = .paused) : step s = .next t := by
  rw [step_of_unit hnext hp hf hu, stepDone_of_paused ht]

theorem stepStart_frameCount_pos (s : State) (h : 1 ≤ s.ipf) : 1 ≤ (stepStart s).frameCount := by
  show 1 ≤ if s.frameCount = 0 then s.ipf else s.frameCount
  split <;> omega

/-- Settles O40: the unit keeps the count it starts with, and the end of the `Step` uses it by whether the unit
executed. -/
theorem stepRunsOneUnit : Obligations.StepRunsOneUnit := by
  intro s hnext hp hf hipf
  obtain ⟨t, ht, hkeeps⟩ := unit_unitKeeps (stepStart (moveTaken s))
  obtain ⟨hcount, htipf, -⟩ := (unit_keepsFrame (stepStart (moveTaken s))).of_eq_next ht
  have hstep := step_of_unit hnext hp hf ht
  have hpos : 1 ≤ t.frameCount := hcount ▸ stepStart_frameCount_pos (moveTaken s) hipf
  refine ⟨t, ht, hcount, fun i hpc hno hi => ?_, fun i hits hpc hwf hmem hi => ?_, hkeeps.schedule,
    fun hexec hmore => ?_, fun hexec hlast => ?_, fun hhalt => ?_⟩
  · rw [← ht, unit_executes (breakpointCheck_none (stepStart (moveTaken s)) hno) hpc hi]
  · rw [← ht, unit_executes (breakpointCheck_active (stepStart (moveTaken s)) hits hwf hmem) hpc hi]
    rfl
  · rw [hstep, stepDone_of_executed hexec (by omega)]
  · have hs : t.ipf = s.ipf := htipf
    rw [hstep, stepDone_of_frameDone hexec hlast, hs]
  · rw [hstep, stepDone_of_paused hhalt]

/-- Settles O41: `Step` is ignored, or its unit halts and the end of the `Step` adds nothing. -/
theorem stepWithoutExecution : Obligations.StepWithoutExecution := by
  refine ⟨fun s hnext hrefused => ?_, fun s hnext hp hf => ⟨fun hpc => ?_, fun hpc hno => ?_, fun hpc hmiss =>
    ⟨fun hno => ?_, fun hits hwf hmem => ?_⟩⟩⟩
  · rw [step_host s .step hnext]
    exact stepCommand_ignored (moveTaken s) (resume_refused hrefused)
  · exact step_of_haltingUnit hnext hp hf (unit_pcPastEnd (stepStart (moveTaken s)) hpc) rfl
  · exact step_of_haltingUnit hnext hp hf
      (unit_fetchOutOfRange (breakpointCheck_none (stepStart (moveTaken s)) hno) hpc) rfl
  · exact step_of_haltingUnit hnext hp hf
      (unit_decodeMiss (breakpointCheck_none (stepStart (moveTaken s)) hno) hpc hmiss) rfl
  · exact step_of_haltingUnit hnext hp hf
      (unit_decodeMiss (breakpointCheck_active (stepStart (moveTaken s)) hits hwf hmem) hpc hmiss) rfl

/-! ### A visit to a breakpoint (R172, R195, R198) -/

/-- The table in which the entry at `a` is toggled, its count one more where it was inactive. -/
def BpTable.visit (a hits : Nat) (active : Bool) (t : BpTable) : BpTable :=
  BpTable.put a (if active then hits else hits + 1) (!active) t

theorem visitToggles_of_visit {s t : State} {hits : Nat} {active : Bool} (hwf : BpTable.wf s.bps)
    (hmem : ⟨s.pc.toNat, hits, active⟩ ∈ s.bps) (hbps : t.bps = BpTable.visit s.pc.toNat hits active s.bps)
    (hcause : t.haltCause = .breakpoint s.pc.toNat ↔ active = false) : VisitToggles hits active s t where
  toggled := by
    rw [hbps]
    exact (BpTable.mem_put ..).2 (.inr ⟨rfl, _, hmem, rfl⟩)
  othersKept e he := by
    have hother : ∀ n, e ≠ ⟨s.pc.toNat, n, !active⟩ := fun n h => he (congrArg BpEntry.addr h)
    rw [hbps, BpTable.visit, BpTable.mem_put]
    simp [he, hother]
  oneEntry := hbps ▸ BpTable.put_wf _ _ _ hwf
  haltsWhereInactive := hcause

/-- A unit at an entry's address toggles the entry; it halts there, with nothing else changed, where the entry was
inactive, and records no breakpoint where it was active. -/
theorem unit_visit {s : State} {hits : Nat} {active : Bool} (hp : s.pc.toNat < 4096) (hwf : BpTable.wf s.bps)
    (hmem : ⟨s.pc.toNat, hits, active⟩ ∈ s.bps) (hc : s.haltCause = .none) :
    Answers (fun t => t.bps = BpTable.visit s.pc.toNat hits active s.bps ∧
      (t.haltCause = .breakpoint s.pc.toNat ↔ active = false) ∧
      (active = false → t = breakpointHalt t.bps s)) (unit s) := by
  cases active with
  | false =>
    have hcheck := breakpointCheck_inactive s hits hwf hmem
    refine ⟨_, unit_breakpoint s hp (by rw [hcheck]), ?_⟩
    rw [hcheck]
    exact ⟨rfl, iff_of_true rfl rfl, fun _ => rfl⟩
  | true =>
    have hcheck := breakpointCheck_active s hits hwf hmem
    obtain ⟨t, ht, hpassed⟩ := unit_passedCheck hp (by rw [hcheck])
    rw [hcheck] at hpassed
    refine ⟨t, ht, hpassed.bps, iff_of_false ?_ nofun, nofun⟩
    rcases hpassed.haltCause with h | h | ⟨code, h⟩
    · have hnone : t.haltCause = .none := h.trans hc
      simp [hnone]
    · simp [h]
    · simp [h]

/-- The end of a `Step` leaves the breakpoint table and the recorded halt as its unit left them. -/
theorem stepDone_bps (t : State) : (stepDone t).bps = t.bps := by rw [stepDone_frame]
theorem stepDone_haltCause (t : State) : (stepDone t).haltCause = t.haltCause := by rw [stepDone_frame]

/-- Settles O36: a visit by the unit of a tick or of a `Step`, whose end leaves what a halt left. -/
theorem breakpointTogglesOnEveryVisit : Obligations.BreakpointTogglesOnEveryVisit := by
  intro s hits active hp hwf hmem
  refine ⟨fun k hnext hc => ?_, fun hnext hpaused hf => ?_⟩
  · obtain ⟨t, ht, hbps, hcause, hhalt⟩ := unit_visit (s := unitTaken k s) hp hwf hmem hc
    exact ⟨t, (step_unit s k hnext).trans ht, visitToggles_of_visit hwf hmem hbps hcause, hhalt⟩
  · obtain ⟨t, ht, hbps, hcause, hhalt⟩ := unit_visit (s := stepStart (moveTaken s)) hp hwf hmem rfl
    refine ⟨stepDone t, step_of_unit hnext hpaused hf ht,
      visitToggles_of_visit hwf hmem ((stepDone_bps t).trans hbps) (by rw [stepDone_haltCause]; exact hcause),
      fun hinactive => ?_⟩
    have hthalt := hhalt hinactive
    rw [stepDone_of_paused (by rw [hthalt]; rfl)]
    exact hthalt

/-! ### The scheduler's commands (R190 to R194) -/

/-- Settles O42: each of the three commands is a test of SCHED_STATE, and for `Go` of HALT_CAUSE. -/
theorem lifecycleCommands : Obligations.LifecycleCommands := by
  refine ⟨fun s hnext => ?_, fun s hnext => ?_, fun s hnext => ?_⟩ <;> rw [step_host s _ hnext]
  · exact ⟨fun h => congrArg _ (if_pos h), fun h => congrArg _ (if_neg h)⟩
  · exact ⟨fun h => congrArg _ (if_pos h), fun h => congrArg _ (if_neg h)⟩
  · exact ⟨fun hp hf => congrArg _ (if_pos ⟨hp, (isFault_eq_false_iff _).2 hf⟩),
      fun hrefused => congrArg _ (if_neg (resume_refused hrefused))⟩

/-- Settles O47: `Cancel` is `StopAndReset` outside Stopped, and nothing in it. -/
theorem stopAndResetResets : Obligations.StopAndResetResets := by
  refine ⟨fun s h => ?_, fun s hnext hstopped => ?_⟩
  · rcases h with hnext | ⟨hnext, hnot⟩ <;> rw [step_host s _ hnext]
    · rfl
    · exact congrArg _ (if_neg hnot)
  · rw [step_host s .cancel hnext]
    exact congrArg _ (if_pos hstopped)

/-! ### The data commands (R196, R197, R201, R202) -/

/-- `Load` fails outside Stopped, with an image of more than 3584 bytes, and with one that cannot be read (R201). -/
theorem loadCommand_fails {s : State} {image : Option (List Byte)}
    (h : s.schedState ≠ .stopped ∨ image = none ∨ ∃ bytes, image = some bytes ∧ 3584 < bytes.length) :
    loadCommand image s = { s with out := .loadReply false :: .newMessage .loadFailed :: s.out } := by
  unfold loadCommand
  cases image with
  | none => rfl
  | some bytes =>
    refine if_neg fun ⟨hstopped, hlen⟩ => ?_
    rcases h with h | h | ⟨_, ⟨⟩, h⟩
    · exact h hstopped
    · cases h
    · omega

theorem loadCommand_succeeds {s : State} {bytes : List Byte} (hstopped : s.schedState = .stopped)
    (hlen : bytes.length ≤ 3584) :
    loadCommand (some bytes) s = { s with
      mem := Memory.writeWhere s.params.font (fun _ => true) 0x200 bytes s.mem
      progCount := bytes.length
      progBytes := bytes
      out := .loadReply true :: .programLoaded bytes.length :: s.out } :=
  if_pos ⟨hstopped, hlen⟩

/-- An image of at most 3584 bytes ends below 4096, so that every byte of it is written. -/
theorem readMem_loadCommand {s : State} {bytes : List Byte} (hm : Memory.wf s.params.font s.mem)
    (hstopped : s.schedState = .stopped) (hlen : bytes.length ≤ 3584) (a : Nat) :
    readMem (loadCommand (some bytes) s) a =
      if h : 0x200 ≤ a ∧ a < 0x200 + bytes.length then bytes[a - 0x200] else readMem s a := by
  rw [loadCommand_succeeds hstopped hlen]
  refine (Memory.read_writeWhere (fun _ => true) 0x200 bytes a hm.1).trans ?_
  by_cases h : 0x200 ≤ a ∧ a < 0x200 + bytes.length
  · rw [dif_pos h, dif_pos ⟨h.1, h.2, by omega, rfl⟩]
  · rw [dif_neg h, dif_neg fun h' => h ⟨h'.1, h'.2.1⟩]
    rfl

/-- Settles O52: the image read back byte by byte, and the three ways to fail. -/
theorem loadPlacesProgram : Obligations.LoadPlacesProgram := by
  intro s image hnext hm
  rw [step_host s _ hnext]
  refine ⟨?_, fun hfails => congrArg Host.Outcome.next (loadCommand_fails (s := moveTaken s) hfails)⟩
  rintro bytes rfl hstopped hlen
  have hread := readMem_loadCommand (s := moveTaken s) hm hstopped hlen
  have hload := loadCommand_succeeds (s := moveTaken s) hstopped hlen
  rw [hload] at hread
  refine ⟨_, congrArg Host.Outcome.next hload, fun k hk => ?_, fun a ha => ?_, rfl, rfl, rfl, rfl⟩
  · rw [hread, dif_pos ⟨by omega, by omega⟩]
    simp only [Nat.add_sub_cancel_left]
  · rw [hread, dif_neg ha]
    rfl

theorem updateKeyCommand_pressed (k : Reg) (s : State) :
    updateKeyCommand k.val true s = { s with keys := s.keys ||| BitVec.twoPow 16 k.val, lastKey := none } :=
  dif_pos k.isLt

theorem updateKeyCommand_released (k : Reg) (s : State) :
    updateKeyCommand k.val false s = { s with keys := s.keys &&& ~~~(BitVec.twoPow 16 k.val), lastKey := some k } :=
  dif_pos k.isLt

/-- A press or a release sets its own bit of KEYS and keeps the others. -/
theorem updateKeyCommand_getLsbD (k : Reg) (pressed : Bool) (s : State) (j : Nat) :
    (updateKeyCommand k.val pressed s).keys.getLsbD j = if j = k.val then pressed else s.keys.getLsbD j := by
  have hk := k.isLt
  cases pressed with
  | true =>
    rw [updateKeyCommand_pressed, BitVec.getLsbD_or, BitVec.getLsbD_twoPow]
    split
    · next h => simp [h]
    · next h => simp [Ne.symm h]
  | false =>
    rw [updateKeyCommand_released, BitVec.getLsbD_and, BitVec.getLsbD_not, BitVec.getLsbD_twoPow]
    split
    · next h => simp [h]
    · next h =>
      by_cases hj : j < 16
      · simp [Ne.symm h, hj]
      · simp [hj, Nat.le_of_not_lt hj]

theorem updateKeyCommand_lastKey (k : Reg) (pressed : Bool) (s : State) :
    (updateKeyCommand k.val pressed s).lastKey = if pressed then none else some k := by
  cases pressed with
  | true => rw [updateKeyCommand_pressed]; rfl
  | false => rw [updateKeyCommand_released]; rfl

/-- Settles O53: the command fits in a tick, and is a press, a release or no key at all. -/
theorem updateKeyState : Obligations.UpdateKeyState := by
  intro s key pressed rest hm
  rw [step_host_in_tick s _ rest hm rfl]
  refine ⟨fun hkey => congrArg _ (dif_neg (by omega)), ?_⟩
  rintro k rfl
  refine ⟨_, rfl, ?_, fun j hj => ?_, updateKeyCommand_lastKey k pressed _, updateKeyCommand_frame _ _ _⟩
  · rw [updateKeyCommand_getLsbD, if_pos rfl]
  · rw [updateKeyCommand_getLsbD, if_neg hj]

theorem addBreakpointCommand_adds {a : Word} {s : State}
    (h : a.toNat % 2 = 0 ∧ 0x200 ≤ a.toNat ∧ a.toNat < 0x200 + s.progCount ∧ BpTable.find s.bps a.toNat = none) :
    addBreakpointCommand a s =
      { s with bps := BpTable.insert a.toNat s.bps, out := .addBreakpointReply true a.toNat :: s.out } :=
  if_pos h

theorem removeBreakpointCommand_removes {a : Word} {s : State} (h : BpTable.find s.bps a.toNat ≠ none) :
    removeBreakpointCommand a s =
      { s with bps := BpTable.erase a.toNat s.bps, out := .removeBreakpointReply true a.toNat :: s.out } :=
  if_neg h

/-- Settles O54: both commands fit in a tick; what the lookup finds is an entry of the table at that address. -/
theorem breakpointCommands : Obligations.BreakpointCommands := by
  refine ⟨fun s a rest hm => ?_, fun s a rest hm => ?_⟩
  · rw [step_host_in_tick s _ rest hm rfl, ← BpTable.find_none]
    refine ⟨_, rfl, fun hok => ?_, fun hno => if_neg hno⟩
    rw [addBreakpointCommand_adds (s := { s with moves := rest }) hok]
    exact ⟨BpTable.mem_insert a.toNat s.bps, rfl⟩
  · rw [step_host_in_tick s _ rest hm rfl]
    refine ⟨_, rfl, fun ⟨e, he, haddr⟩ => ?_, fun hno => if_pos ((BpTable.find_none ..).2 hno)⟩
    have hfound : BpTable.find s.bps a.toNat ≠ none := fun hnone => (BpTable.find_none ..).1 hnone e he haddr
    rw [removeBreakpointCommand_removes (s := { s with moves := rest }) hfound]
    exact ⟨BpTable.mem_erase a.toNat s.bps, rfl⟩

/-! ### Snapshots (R206, R207) -/

theorem pauseCommand_schedState (s : State) :
    (pauseCommand s).schedState = if s.schedState = .running then .paused else s.schedState := by
  unfold pauseCommand
  split <;> rfl

/-- A restorable snapshot is written over the paused state. -/
theorem restoreCommand_of_restorable {p : Snapshot} {s : State} (h : restorable p s) :
    restoreCommand (some p) s = emit (.restoreReply true) (restoreFields p (pauseCommand s)) :=
  if_pos h

/-- Any other snapshot is rejected, and the pause stands. -/
theorem restoreCommand_rejects {snapshot : Option Snapshot} {s : State}
    (h : ∀ p, snapshot = some p → ¬restorable p s) :
    restoreCommand snapshot s =
      emit (.restoreReply false) (emit (.newMessage .restoreRejected) (pauseCommand s)) := by
  cases snapshot with
  | none => rfl
  | some p => exact if_neg (h p rfl)

/-- Settles O55: `restorable` is what the statement asks of a snapshot, and the pause comes before either outcome. -/
theorem restoreOverwritesOrRejects : Obligations.RestoreOverwritesOrRejects := by
  intro s snapshot hnext
  rw [step_host s _ hnext]
  refine ⟨?_, fun hrejected => ?_⟩
  · rintro p rfl hmem hprog hipf
    refine ⟨_, congrArg Host.Outcome.next (restoreCommand_of_restorable (s := moveTaken s) ⟨hmem, hprog, hipf⟩),
      rfl, pauseCommand_schedState (moveTaken s), ?_, ?_⟩ <;> rw [pauseCommand_frame] <;> rfl
  · have hnot : ∀ p, snapshot = some p → ¬restorable p (moveTaken s) := by
      rintro p rfl ⟨hmem, hprog, hipf⟩
      obtain ⟨_, ⟨⟩, h | h | h⟩ := hrejected.resolve_left nofun
      · exact h hprog
      · exact hipf h
      · exact h hmem
    refine congrArg Host.Outcome.next ((restoreCommand_rejects hnot).trans ?_)
    rw [pauseCommand_frame, pauseCommand_schedState]
    rfl

/-- Settles O56: a state that meets the invariant has a restorable snapshot. -/
theorem storeThenRestore : Obligations.StoreThenRestore := by
  intro s0 s hinv hparams hprog hstore hrestore
  have hmem : Memory.wf s.params.font s0.mem := hparams ▸ hinv.memCanonical
  have hipf : s0.ipf ≠ 0 := Nat.one_le_iff_ne_zero.1 hinv.ipfPositive
  have hok : restorable (snapshotOf s0) (moveTaken s) := ⟨hmem, hprog, hipf⟩
  refine ⟨_, _, step_host s0 _ hstore, rfl,
    (step_host s _ hrestore).trans (congrArg Host.Outcome.next (restoreCommand_of_restorable hok)), rfl, ?_⟩
  rw [pauseCommand_frame]
  exact ⟨rfl, rfl, rfl, rfl⟩

/-- Settles O59: `TryStore` is its reply. -/
theorem tryStoreChangesNothing : Obligations.TryStoreChangesNothing := by
  intro s ok hnext
  rw [step_host s _ hnext]
  rfl

/-! ### The accessors and the host's reads (R203 to R205) -/

/-- Settles O57: each accessor fits in a tick and is its reply; for `GetOpcode` the reply is by the range of R204. -/
theorem accessorsChangeNothing : Obligations.AccessorsChangeNothing := by
  refine ⟨fun s c o rest hm hpair => ?_, fun s a rest hm => ?_⟩
  · simp only [List.mem_cons, List.not_mem_nil, or_false, Prod.mk.injEq] at hpair
    rcases hpair with ⟨rfl, rfl⟩ | ⟨rfl, rfl⟩ | ⟨rfl, rfl⟩ | ⟨rfl, rfl⟩ | ⟨rfl, rfl⟩ <;>
      exact step_host_in_tick s _ rest hm rfl
  · have hopcode (w : Option Word) (hw : opcodeAt a { s with moves := rest } = w) :
        step s = .next { s with moves := rest, out := .opcodeReply w :: s.out } :=
      hw ▸ step_host_in_tick s _ rest hm rfl
    exact ⟨fun h => hopcode _ (if_pos h), fun h => hopcode _ (if_neg (by omega))⟩

/-- Settles O58: each read fits in a tick and is its reply. -/
theorem hostReadsChangeNothing : Obligations.HostReadsChangeNothing := by
  rintro s c o rest hm (⟨w, rfl, rfl⟩ | ⟨rfl, rfl⟩ | ⟨rfl, rfl⟩) <;> exact step_host_in_tick s _ rest hm rfl

end Sys2Proof.Machine

/-! ## Exceptions (60_exceptions.md) -/

namespace Sys2Proof.Machine

/-! ### What a step can do after a fault (R213) -/

/-- Whose move a step is: the core's, the timer's, or the host's that stands first (R208). -/
theorem step_move_cases (s : State) :
    (∃ moves, step s = coreMove { s with moves := moves }) ∨
    (∃ b rest, step s = .next (tickFire b { s with moves := rest })) ∨
    ∃ c rest, s.moves = .host c :: rest ∧ step s = hostCommand c { s with moves := rest } := by
  unfold step nextMove
  split
  · exact .inl ⟨s.moves, rfl⟩
  · next rest _ => exact .inl ⟨rest, rfl⟩
  · next b rest _ =>
    split
    · exact .inl ⟨s.moves, rfl⟩
    · exact .inr (.inl ⟨b, rest, rfl⟩)
  · next c rest hm =>
    split
    · exact .inl ⟨s.moves, rfl⟩
    · exact .inr (.inr ⟨c, rest, hm, rfl⟩)

/-- The scheduler is Paused with the fault `code` recorded. -/
structure Faulted (code : Fault) (s : State) : Prop where
  paused : s.schedState = .paused
  recorded : s.haltCause = .fault code

/-- Nothing but KEYS, LAST_KEY, BP, the moves to come and the event log differs. -/
def OnlyHostSide (s t : State) : Prop :=
  t = { s with keys := t.keys, lastKey := t.lastKey, bps := t.bps, moves := t.moves, out := t.out }

section
variable {code : Fault} {s : State}

theorem Faulted.not_running (h : Faulted code s) : s.schedState ≠ .running := by simp [h.paused]

theorem Faulted.not_stopped (h : Faulted code s) : s.schedState ≠ .stopped := by simp [h.paused]

/-- `Go` and `Step` are refused after a fault (R213). -/
theorem Faulted.not_resumable (h : Faulted code s) : ¬(s.schedState = .paused ∧ s.haltCause.isFault = false) :=
  resume_refused (.inr ⟨code, h.recorded⟩)

/-- The core ends the tick in progress, or does nothing between ticks. -/
theorem Faulted.coreMove_cases (h : Faulted code s) :
    coreMove s = .next s ∨ (s.burst ≠ none ∧ coreMove s = .next (frameEnd { s with burst := none })) := by
  cases hb : s.burst with
  | none => exact .inl (coreMove_of_not_running hb h.not_running)
  | some k => exact .inr ⟨nofun, coreMove_frameEnd hb (.inr h.not_running)⟩

/-- A command that neither resets nor restores is refused, or acts on the keys, the breakpoint table or the event
log. -/
theorem Faulted.hostCommand_onlyHostSide (h : Faulted code s) {c : Command} (hreset : c ≠ .stopAndReset)
    (hcancel : c ≠ .cancel) (hrestore : ∀ p, c ≠ .tryRestore p) : Answers (OnlyHostSide s) (hostCommand c s) := by
  cases c with
  | stopAndReset => exact absurd rfl hreset
  | cancel => exact absurd rfl hcancel
  | tryRestore p => exact absurd rfl (hrestore p)
  | startAsync => exact ⟨s, congrArg _ (if_neg h.not_stopped), rfl⟩
  | pause => exact ⟨s, congrArg _ (if_neg h.not_running), rfl⟩
  | go => exact ⟨s, congrArg _ (if_neg h.not_resumable), rfl⟩
  | step => exact ⟨s, stepCommand_ignored s h.not_resumable, rfl⟩
  | load image => exact ⟨_, congrArg Host.Outcome.next (loadCommand_fails (.inl h.not_stopped)), rfl⟩
  | updateKeyState key pressed => exact ⟨_, rfl, by rw [OnlyHostSide, updateKeyCommand_frame]⟩
  | tryAddBreakpoint addr => exact ⟨_, rfl, by rw [OnlyHostSide, addBreakpointCommand_frame]⟩
  | tryRemoveBreakpoint addr => exact ⟨_, rfl, by rw [OnlyHostSide, removeBreakpointCommand_frame]⟩
  | tryStore | getSurface | getRegisters | getIRegister | getProgramCounter | getMemory | getOpcode | getMnemonic
  | getSchedState | getHaltCause => exact ⟨_, rfl, rfl⟩

/-- A restore writes no scheduler state and no halt cause: its pause has nothing to do. -/
theorem restoreCommand_faulted (h : Faulted code s) (p : Option Snapshot) : Faulted code (restoreCommand p s) := by
  have hpause : pauseCommand s = s := if_neg h.not_running
  unfold restoreCommand
  rw [hpause]
  split
  · split <;> exact ⟨h.paused, h.recorded⟩
  · exact ⟨h.paused, h.recorded⟩

/-- A step after a fault, but for a reset or a cancellation: the host's side alone changes, or the tick in progress
ends, or the host restores a snapshot. -/
theorem Faulted.step_cases (h : Faulted code s)
    (hstays : ∀ c rest, s.moves = .host c :: rest → c ≠ .stopAndReset ∧ c ≠ .cancel) :
    Answers (OnlyHostSide s) (step s) ∨
    (s.burst ≠ none ∧ ∃ moves, step s = .next (frameEnd { s with burst := none, moves := moves })) ∨
    ∃ p rest, s.moves = .host (.tryRestore p) :: rest ∧
      step s = .next (restoreCommand p { s with moves := rest }) := by
  have hmoved (moves : List Move) : Faulted code { s with moves := moves } := ⟨h.paused, h.recorded⟩
  rcases step_move_cases s with ⟨moves, hs⟩ | ⟨b, rest, hs⟩ | ⟨c, rest, hm, hs⟩
  · rcases (hmoved moves).coreMove_cases with hcore | ⟨hb, hcore⟩
    · exact .inl ⟨_, hs.trans hcore, rfl⟩
    · exact .inr (.inl ⟨hb, moves, hs.trans hcore⟩)
  · rw [tickFire_of_not_running b _ (hmoved rest).not_running] at hs
    exact .inl ⟨_, hs, rfl⟩
  · obtain ⟨hreset, hcancel⟩ := hstays c rest hm
    by_cases hrestore : ∃ p, c = .tryRestore p
    · obtain ⟨p, rfl⟩ := hrestore
      exact .inr (.inr ⟨p, rest, hm, hs⟩)
    · obtain ⟨t, ht, hside⟩ := (hmoved rest).hostCommand_onlyHostSide hreset hcancel (not_exists.1 hrestore)
      exact .inl ⟨t, hs.trans ht, hside⟩

end

/-- Settles O44: of the three things a step can do after a fault, only a restore between ticks reaches the registers,
memory or the surface, and none writes SCHED_STATE or HALT_CAUSE. -/
theorem faultIsSticky : Obligations.FaultIsSticky := by
  intro s code hpaused hcause hstays
  have h : Faulted code s := ⟨hpaused, hcause⟩
  rcases h.step_cases hstays with ⟨t, ht, hside⟩ | ⟨hb, moves, ht⟩ | ⟨p, rest, hm, ht⟩
  · refine ⟨t, ht, ?_⟩
    rw [hside]
    exact ⟨hpaused, hcause, fun hb _ => ⟨hb, rfl, rfl, rfl, rfl, rfl, rfl, rfl, rfl⟩⟩
  · refine ⟨_, ht, ?_⟩
    rw [frameEnd_frame]
    exact ⟨hpaused, hcause, fun hnone => absurd hnone hb⟩
  · have hrest : Faulted code { s with moves := rest } := ⟨hpaused, hcause⟩
    have hkept := restoreCommand_faulted hrest p
    exact ⟨_, ht, hkept.paused, hkept.recorded, fun _ hno => absurd hm (hno p rest)⟩

end Sys2Proof.Machine

/-! ## Reset and boot (70_reset_and_hazards.md) -/

namespace Sys2Proof.Machine

/-! ### The boot sequence (R242, R244) -/

/-- StartAsync in Stopped and then the timer: the core is Running inside a tick of that burst. -/
theorem run_startAsync_tickFire {s : State} {b : Nat} (hidle : s.burst = none) (hstopped : s.schedState = .stopped)
    (hm : s.moves = [.host .startAsync, .tickFire b]) :
    Sys2Proof.core.run 2 s =
      .next { s with schedState := .running, haltCause := .none, burst := some b, moves := [] } := by
  have hstart : step s = .next { s with schedState := .running, haltCause := .none, moves := [.tickFire b] } := by
    refine ((lifecycleCommands.1 s ⟨hidle, _, hm⟩).1 hstopped).trans ?_
    rw [moveTaken, hm]
    rfl
  have htick := (tickFiresWhileRunning.1
    { s with schedState := .running, haltCause := .none, moves := [.tickFire b] } b [] hidle rfl).1 rfl
  exact (core_run_succ 1 _ _ hstart).trans (core_run_succ 0 _ _ htick)

/-- Settles O60: `Load` leaves everything but the program as reset put it (R201, R44), and `StartAsync` and
the timer touch neither memory nor the registers. -/
theorem bootRunsFromEntryPoint : Obligations.BootRunsFromEntryPoint := by
  intro p bytes b hlen
  obtain ⟨hregs, -, -, -, -, -, -, hzero, -⟩ := resetState p
  obtain ⟨t, hload, hbytes, hkept, hcount, -, -, hframe⟩ :=
    (loadPlacesProgram { State.resetWith p with
      moves := [.host (.load (some bytes)), .host .startAsync, .tickFire b] } _ ⟨rfl, _, rfl⟩ ⟨.nil, nofun⟩).1
      bytes rfl rfl hlen
  have hrun := run_startAsync_tickFire (s := t) (b := b) (congrArg State.burst hframe)
    (congrArg State.schedState hframe) (congrArg State.moves hframe)
  have hclear : ∀ a, 0x200 + bytes.length ≤ a → readMem t a = 0 := fun a ha =>
    (hkept a (by omega)).trans (hzero a (by omega))
  have hzeroRegs : ∀ r, getV r t = 0 := fun r => (congrArg (getV r) hframe).trans (hregs r)
  exact ⟨_, (core_run_succ 2 _ t hload).trans hrun, rfl, congrArg State.pc hframe, rfl, hcount, hbytes, hclear,
    hzeroRegs, congrArg State.stack hframe⟩

/-! ### Power-on (R241) -/

/-- Settles O46: the machine's reset is `resetWith` at the defaults, whose font is the table of R63. -/
theorem powerOnIsResetState : Obligations.PowerOnIsResetState :=
  ⟨Params.default, rfl, by decide, rfl, rfl, rfl, rfl, rfl, by decide, by decide⟩

end Sys2Proof.Machine
